-- ==== Sys2Proof/Word.lean ====
section
/-! DEFINITION. The word types of the block (00_scope.md R8, R10): every value is an unsigned
bit vector of a fixed width. -/

namespace Sys2Proof

/-- A 4-bit field of an instruction word, and a register or key number (R71, R72). -/
abbrev Nibble := BitVec 4

/-- A byte: a general register, a timer, a memory cell, an immediate `nn` (R8, R71). -/
abbrev Byte := BitVec 8

/-- A 12-bit address or offset field `nnn` (R71). -/
abbrev Addr := BitVec 12

/-- A 16-bit value: an instruction word, `PC`, `I`, a stack entry (R8). -/
abbrev Word := BitVec 16

end Sys2Proof
end

