-- ==== Sys2Proof/Config.lean ====
section
/-! DEFINITION. The open parameters of the block (00_scope.md R9) and the one free value of the
spec. The parameters are plain data that the machine's state carries and no step changes, so a
statement about every state holds for every setting of them (notes/assumptions/2.md). Their
default values stand in Sys2Proof/Machine/Defaults.lean. -/

namespace Sys2Proof

/-- SYS_POLICY: what a class-0 word that is neither CLS nor RET decodes as (R81, D16). -/
inductive SysPolicy where
  /-- It is Unknown. -/
  | unknown
  /-- It is `SYS(nnn)`, which only advances PC. -/
  | nop
  deriving DecidableEq, Repr

/-- FLAG_ORDER: which write comes last when VF is also the destination (R153, D10). -/
inductive FlagOrder where
  | flagLast
  | resultLast
  deriving DecidableEq, Repr

/-- FONT_WRITE_POLICY: what a store below 0x050 does (R54, D9). -/
inductive FontWritePolicy where
  | fault
  | write
  | ignore
  deriving DecidableEq, Repr

/-- UNKNOWN_PC_STEP: how far an unknown opcode moves PC, 0 or 2 (R105, D4). -/
inductive UnknownPcStep where
  | zero
  | two
  deriving DecidableEq, Repr

/-- The 80 glyph bytes of FONT, glyph `g` at offsets `5g .. 5g+4` (R22). -/
abbrev Font := Vector Byte 80

/-- A positive rate in events per second, whole or fractional; zero and negative rates cannot be
built (00_scope.md R9, "any positive rate"; notes/assumptions/18.md). -/
structure Rate where
  perSecond : Rat
  positive  : 0 < perSecond
  deriving DecidableEq, Repr

/-- The open parameters of R9, one field each. -/
structure Config where
  /-- FONT (R22, D22). -/
  font           : Font
  /-- UNKNOWN_PC_STEP (R105, D4). -/
  unknownPcStep  : UnknownPcStep
  /-- SYS_POLICY (R81, D16). -/
  sysPolicy      : SysPolicy
  /-- FLAG_ORDER (R153, D10). -/
  flagOrder      : FlagOrder
  /-- FONT_WRITE_POLICY (R54, D9). -/
  fontWrite      : FontWritePolicy
  /-- CLS_SETS_REDRAW (R190, D19). -/
  clsSetsRedraw  : Bool
  /-- STRICT_DISPATCH (R80, D27). -/
  strictDispatch : Bool
  /-- CPU_HZ, in instructions per second (R282, D25). No rule reads it. -/
  cpuHz          : Rate
  /-- TICK_HZ, in Ticks per second (R282, D25). No rule reads it. -/
  tickHz         : Rate
  deriving DecidableEq, Repr

/-- The random byte of a Cycle whose `rand8` input the host's transaction does not state, as a
function of the count of Cycles. It has no body: it can be any value, "under no law" (R106, D14;
notes/assumptions/4.md). -/
opaque Config.freeRand8 : Nat → BitVec 8

end Sys2Proof
end

