-- ==== Sys2Proof/Machine/Defaults.lean ====
section
/-! DEFINITION. The default setting of the open parameters (00_scope.md R9;
notes/assumptions/2.md, 3.md, 18.md). -/

namespace Sys2Proof.Machine

/-- The default FONT: the standard CHIP-8 glyphs (10_state.md R22, D22), glyph 0 first. -/
def defaultFont : Font := #v[
  0xF0, 0x90, 0x90, 0x90, 0xF0,
  0x20, 0x60, 0x20, 0x20, 0x70,
  0xF0, 0x10, 0xF0, 0x80, 0xF0,
  0xF0, 0x10, 0xF0, 0x10, 0xF0,
  0x90, 0x90, 0xF0, 0x10, 0x10,
  0xF0, 0x80, 0xF0, 0x10, 0xF0,
  0xF0, 0x80, 0xF0, 0x90, 0xF0,
  0xF0, 0x10, 0x20, 0x40, 0x40,
  0xF0, 0x90, 0xF0, 0x90, 0xF0,
  0xF0, 0x90, 0xF0, 0x10, 0xF0,
  0xF0, 0x90, 0xF0, 0x90, 0x90,
  0xE0, 0x90, 0xE0, 0x90, 0xE0,
  0xF0, 0x80, 0x80, 0x80, 0xF0,
  0xE0, 0x90, 0x90, 0x90, 0xE0,
  0xF0, 0x80, 0xF0, 0x80, 0xF0,
  0xF0, 0x80, 0xF0, 0x80, 0x80]

/-- 60 per second, the default of CPU_HZ and of TICK_HZ (R9, D25). -/
def defaultRate : Rate := ⟨60, by decide⟩

/-- The default of every open parameter (R9). -/
def defaultConfig : Config where
  font           := defaultFont
  unknownPcStep  := .zero
  sysPolicy      := .unknown
  flagOrder      := .flagLast
  fontWrite      := .fault
  clsSetsRedraw  := false
  strictDispatch := false
  cpuHz          := defaultRate
  tickHz         := defaultRate

end Sys2Proof.Machine
end

