-- ==== Sys2Proof/Syntax.lean ====
section
/-! DEFINITION. The instructions: one constructor for each row of spec/opcode_table.json
(30_encoding.md R75), in the table's order, the conditional SYS row last (R81).

`x` and `y` are register numbers, `nn` an immediate byte, `nnn` a 12-bit address, `n` a count
(R71, R72). `u` holds the bits that dispatch ignores when STRICT_DISPATCH is false (R80): they
carry no meaning, but the events of R231 and R232 record the whole word
(notes/assumptions/12.md). -/

namespace Sys2Proof

inductive Instr where
  /-- `00E0` clear-screen (R190); `u` is bits 11:8. -/
  | cls (u : Nibble)
  /-- `00EE` return (R120); `u` is bits 11:8. -/
  | ret (u : Nibble)
  /-- `1NNN` jump nnn (R121). -/
  | jp (nnn : Addr)
  /-- `2NNN` call nnn (R122). -/
  | call (nnn : Addr)
  /-- `3XNN` skip-if-equal Vx,nn (R123). -/
  | seImm (x : Nibble) (nn : Byte)
  /-- `4XNN` skip-if-not-equal Vx,nn (R124). -/
  | sneImm (x : Nibble) (nn : Byte)
  /-- `5XY-` skip-if-Vx==Vy (R125); `u` is bits 3:0. -/
  | seReg (x y u : Nibble)
  /-- `6XNN` load Vx,nn (R140). -/
  | ldImm (x : Nibble) (nn : Byte)
  /-- `7XNN` add Vx,nn (R141). -/
  | addImm (x : Nibble) (nn : Byte)
  /-- `8XY0` Vx←Vy (R142). -/
  | ldReg (x y : Nibble)
  /-- `8XY1` Vx|=Vy (R143). -/
  | orReg (x y : Nibble)
  /-- `8XY2` Vx&=Vy (R144). -/
  | andReg (x y : Nibble)
  /-- `8XY3` Vx^=Vy (R145). -/
  | xorReg (x y : Nibble)
  /-- `8XY4` add Vx,Vy (R146). -/
  | addReg (x y : Nibble)
  /-- `8XY5` sub Vx,Vy (R147). -/
  | sub (x y : Nibble)
  /-- `8XY6` shr Vx,Vy (R148). -/
  | shr (x y : Nibble)
  /-- `8XY7` subn Vx,Vy (R149). -/
  | subn (x y : Nibble)
  /-- `8XYE` shl Vx,Vy (R150). -/
  | shl (x y : Nibble)
  /-- `9XY-` skip-if-Vx!=Vy (R126); `u` is bits 3:0. -/
  | sneReg (x y u : Nibble)
  /-- `ANNN` set index nnn (R170). -/
  | ldI (nnn : Addr)
  /-- `BNNN` jump+offset nnn (R127). -/
  | jpV0 (nnn : Addr)
  /-- `CXNN` random Vx,nn (R151). -/
  | rnd (x : Nibble) (nn : Byte)
  /-- `DXYN` draw Vx,Vy,n (R191). -/
  | drw (x y n : Nibble)
  /-- `EX9E` skip-if-key-pressed Vx (R210). -/
  | skp (x : Nibble)
  /-- `EXA1` skip-if-key-not-pressed Vx (R211). -/
  | sknp (x : Nibble)
  /-- `FX07` load Vx,delayTimer (R212). -/
  | ldVxDt (x : Nibble)
  /-- `FX0A` wait-for-key Vx (R213). -/
  | ldVxK (x : Nibble)
  /-- `FX15` set delayTimer,Vx (R214). -/
  | ldDtVx (x : Nibble)
  /-- `FX18` set soundTimer,Vx (R215). -/
  | ldStVx (x : Nibble)
  /-- `FX1E` add index,Vx (R171). -/
  | addIVx (x : Nibble)
  /-- `FX29` set index to glyph(Vx) (R172). -/
  | ldFVx (x : Nibble)
  /-- `FX33` store BCD of Vx (R173). -/
  | ldBVx (x : Nibble)
  /-- `FX55` store registers to memory (R174). -/
  | ldMemVx (x : Nibble)
  /-- `FX65` load registers from memory (R175). -/
  | ldVxMem (x : Nibble)
  /-- `0NNN`, only when SYS_POLICY = nop (R81). -/
  | sys (nnn : Addr)
  deriving DecidableEq, Repr

end Sys2Proof
end

