-- ==== Sys2Proof/WellFormed.lean ====
section
/-! DEFINITION. Which instruction terms are instructions of the block under a setting of its
parameters: with STRICT_DISPATCH the ignored bits are zero (30_encoding.md R80), and SYS exists
only with SYS_POLICY = nop and only for class-0 words that are neither CLS nor RET (R81). Every
other field may hold every value (R72, R73). -/

namespace Sys2Proof

/-- The ignored bits of CLS, RET, SE_REG and SNE_REG must be zero under STRICT_DISPATCH (R80). -/
def ignoredBitsOk (c : Config) (u : Nibble) : Bool :=
  !c.strictDispatch || u == 0

/-- `nnn` is the low part of a CLS or a RET word (R76, class 0x0). -/
def isClsOrRet (c : Config) (nnn : Addr) : Bool :=
  (nnn.setWidth 8 == 0xE0#8 || nnn.setWidth 8 == 0xEE#8) && ignoredBitsOk c (nnn.extractLsb' 8 4)

/-- SYS needs its policy and a word that is neither CLS nor RET (R81). -/
def sysOk (c : Config) (nnn : Addr) : Bool :=
  c.sysPolicy == .nop && !isClsOrRet c nnn

/-- The instruction is one that the parameters admit. -/
def Instr.wf (c : Config) : Instr → Bool
  | .cls u        => ignoredBitsOk c u
  | .ret u        => ignoredBitsOk c u
  | .jp _         => true
  | .call _       => true
  | .seImm _ _    => true
  | .sneImm _ _   => true
  | .seReg _ _ u  => ignoredBitsOk c u
  | .ldImm _ _    => true
  | .addImm _ _   => true
  | .ldReg _ _    => true
  | .orReg _ _    => true
  | .andReg _ _   => true
  | .xorReg _ _   => true
  | .addReg _ _   => true
  | .sub _ _      => true
  | .shr _ _      => true
  | .subn _ _     => true
  | .shl _ _      => true
  | .sneReg _ _ u => ignoredBitsOk c u
  | .ldI _        => true
  | .jpV0 _       => true
  | .rnd _ _      => true
  | .drw _ _ _    => true
  | .skp _        => true
  | .sknp _       => true
  | .ldVxDt _     => true
  | .ldVxK _      => true
  | .ldDtVx _     => true
  | .ldStVx _     => true
  | .addIVx _     => true
  | .ldFVx _      => true
  | .ldBVx _      => true
  | .ldMemVx _    => true
  | .ldVxMem _    => true
  | .sys nnn      => sysOk c nnn

end Sys2Proof
end

