-- ==== Sys2Proof/Decode.lean ====
section
/-! DEFINITION. Decoding (30_encoding.md R70 to R83), total on every word and on any bytes, and
after it the encoder, written from the rows of R75. A word that is no instruction is rejected by
name, as Unknown with the word (R76, R79). -/

namespace Sys2Proof

/-! ## The fields of a word (R71) -/

/-- `c`, the opcode class: word[15:12]. -/
def classOf (w : Word) : Nibble := w.extractLsb' 12 4
/-- `x`: word[11:8]. -/
def xOf (w : Word) : Nibble := w.extractLsb' 8 4
/-- `y`: word[7:4]. -/
def yOf (w : Word) : Nibble := w.extractLsb' 4 4
/-- `n`, the low nibble: word[3:0]. -/
def nOf (w : Word) : Nibble := w.extractLsb' 0 4
/-- `nn`, the low byte: word[7:0]. -/
def nnOf (w : Word) : Byte := w.extractLsb' 0 8
/-- `nnn`: word[11:0]. -/
def nnnOf (w : Word) : Addr := w.extractLsb' 0 12

/-! ## Dispatch (R74 to R81) -/

/-- What the decoder says of a word (R76): `Unknown` is a verdict of its own. -/
inductive Verdict where
  | instr (i : Instr)
  | unknown (word : Word)
  deriving DecidableEq, Repr

/-- An instruction whose row has ignored bits, which STRICT_DISPATCH requires to be zero (R80). -/
def ifIgnoredOk (c : Config) (u : Nibble) (i : Instr) (w : Word) : Verdict :=
  if ignoredBitsOk c u then .instr i else .unknown w

/-- A class-0 word that is neither CLS nor RET (R81). -/
def decodeSys (c : Config) (w : Word) : Verdict :=
  match c.sysPolicy with
  | .nop     => .instr (.sys (nnnOf w))
  | .unknown => .unknown w

/-- Class 0x0 selects by its low byte (R77, R80, R81). -/
def decodeClass0 (c : Config) (w : Word) : Verdict :=
  if nnOf w = 0xE0#8 ∧ ignoredBitsOk c (xOf w) then .instr (.cls (xOf w))
  else if nnOf w = 0xEE#8 ∧ ignoredBitsOk c (xOf w) then .instr (.ret (xOf w))
  else decodeSys c w

/-- Class 0x8 selects by its low nibble (R78). -/
def decodeClass8 (w : Word) : Verdict :=
  if nOf w = 0x0#4 then .instr (.ldReg (xOf w) (yOf w))
  else if nOf w = 0x1#4 then .instr (.orReg (xOf w) (yOf w))
  else if nOf w = 0x2#4 then .instr (.andReg (xOf w) (yOf w))
  else if nOf w = 0x3#4 then .instr (.xorReg (xOf w) (yOf w))
  else if nOf w = 0x4#4 then .instr (.addReg (xOf w) (yOf w))
  else if nOf w = 0x5#4 then .instr (.sub (xOf w) (yOf w))
  else if nOf w = 0x6#4 then .instr (.shr (xOf w) (yOf w))
  else if nOf w = 0x7#4 then .instr (.subn (xOf w) (yOf w))
  else if nOf w = 0xE#4 then .instr (.shl (xOf w) (yOf w))
  else .unknown w

/-- Class 0xE selects by its low byte (R78). -/
def decodeClassE (w : Word) : Verdict :=
  if nnOf w = 0x9E#8 then .instr (.skp (xOf w))
  else if nnOf w = 0xA1#8 then .instr (.sknp (xOf w))
  else .unknown w

/-- Class 0xF selects by its low byte (R78). -/
def decodeClassF (w : Word) : Verdict :=
  if nnOf w = 0x07#8 then .instr (.ldVxDt (xOf w))
  else if nnOf w = 0x0A#8 then .instr (.ldVxK (xOf w))
  else if nnOf w = 0x15#8 then .instr (.ldDtVx (xOf w))
  else if nnOf w = 0x18#8 then .instr (.ldStVx (xOf w))
  else if nnOf w = 0x1E#8 then .instr (.addIVx (xOf w))
  else if nnOf w = 0x29#8 then .instr (.ldFVx (xOf w))
  else if nnOf w = 0x33#8 then .instr (.ldBVx (xOf w))
  else if nnOf w = 0x55#8 then .instr (.ldMemVx (xOf w))
  else if nnOf w = 0x65#8 then .instr (.ldVxMem (xOf w))
  else .unknown w

/-- The decode function of R76. -/
def decodeWord (c : Config) (w : Word) : Verdict :=
  match (classOf w).toNat with
  | 0x0 => decodeClass0 c w
  | 0x1 => .instr (.jp (nnnOf w))
  | 0x2 => .instr (.call (nnnOf w))
  | 0x3 => .instr (.seImm (xOf w) (nnOf w))
  | 0x4 => .instr (.sneImm (xOf w) (nnOf w))
  | 0x5 => ifIgnoredOk c (nOf w) (.seReg (xOf w) (yOf w) (nOf w)) w
  | 0x6 => .instr (.ldImm (xOf w) (nnOf w))
  | 0x7 => .instr (.addImm (xOf w) (nnOf w))
  | 0x8 => decodeClass8 w
  | 0x9 => ifIgnoredOk c (nOf w) (.sneReg (xOf w) (yOf w) (nOf w)) w
  | 0xA => .instr (.ldI (nnnOf w))
  | 0xB => .instr (.jpV0 (nnnOf w))
  | 0xC => .instr (.rnd (xOf w) (nnOf w))
  | 0xD => .instr (.drw (xOf w) (yOf w) (nOf w))
  | 0xE => decodeClassE w
  | _   => decodeClassF w

/-! ## Bytes (R56, R70, R83) -/

/-- The word of two bytes, the first in word[15:8] (R70). -/
def wordOfBytes (b0 b1 : Byte) : Word := b0 ++ b1

/-- The byte of a word that stands at the lower address (R56). -/
def highByte (w : Word) : Byte := w.extractLsb' 8 8

/-- The byte of a word that stands at the higher address (R56). -/
def lowByte (w : Word) : Byte := w.extractLsb' 0 8

/-- What the decoder says of a list of bytes: the verdict on the first word and the bytes after
it (every instruction is 2 bytes, R83), or that there is no whole word. -/
inductive Decoded where
  | verdict (v : Verdict) (rest : List Byte)
  | truncated (got : List Byte)
  deriving DecidableEq, Repr

/-- Decodes the instruction at the head of a list of bytes. -/
def decode (c : Config) : List Byte → Decoded
  | b0 :: b1 :: rest => .verdict (decodeWord c (wordOfBytes b0 b1)) rest
  | short            => .truncated short

/-! ## The opcode table's words -/

/-- The setting under which every row of spec/opcode_table.json is an instruction: the defaults,
with the condition that the SYS row names, SYS_POLICY = nop (R81; notes/assumptions/13.md). -/
def tableConfig : Config := { Machine.defaultConfig with sysPolicy := .nop }

/-- The table's word: its low `nbits` bits, every bit above them zero. -/
def tableWord (nbits w : Nat) : Word := BitVec.ofNat 16 (w % 2 ^ nbits)

/-- The instruction that the decoder reads from a word of the opcode table, laid out as the
hardware stores it. -/
def decodeTableWord (nbits w : Nat) : Option Instr :=
  match decode tableConfig [highByte (tableWord nbits w), lowByte (tableWord nbits w)] with
  | .verdict (.instr i) _ => some i
  | _                     => none

/-! ## The encoder (R71, R75) -/

/-- A word of class `c` with the field `nnn`. -/
def mkNNN (c : Nibble) (nnn : Addr) : Word := c ++ nnn
/-- A word of class `c` with the fields `x` and `nn`. -/
def mkXNN (c x : Nibble) (nn : Byte) : Word := c ++ x ++ nn
/-- A word of class `c` with the fields `x`, `y` and `n`. -/
def mkXYN (c x y n : Nibble) : Word := c ++ x ++ y ++ n

/-- The word of an instruction, from the patterns of R75. -/
def encode : Instr → Word
  | .cls u        => mkXNN 0x0 u 0xE0
  | .ret u        => mkXNN 0x0 u 0xEE
  | .jp nnn       => mkNNN 0x1 nnn
  | .call nnn     => mkNNN 0x2 nnn
  | .seImm x nn   => mkXNN 0x3 x nn
  | .sneImm x nn  => mkXNN 0x4 x nn
  | .seReg x y u  => mkXYN 0x5 x y u
  | .ldImm x nn   => mkXNN 0x6 x nn
  | .addImm x nn  => mkXNN 0x7 x nn
  | .ldReg x y    => mkXYN 0x8 x y 0x0
  | .orReg x y    => mkXYN 0x8 x y 0x1
  | .andReg x y   => mkXYN 0x8 x y 0x2
  | .xorReg x y   => mkXYN 0x8 x y 0x3
  | .addReg x y   => mkXYN 0x8 x y 0x4
  | .sub x y      => mkXYN 0x8 x y 0x5
  | .shr x y      => mkXYN 0x8 x y 0x6
  | .subn x y     => mkXYN 0x8 x y 0x7
  | .shl x y      => mkXYN 0x8 x y 0xE
  | .sneReg x y u => mkXYN 0x9 x y u
  | .ldI nnn      => mkNNN 0xA nnn
  | .jpV0 nnn     => mkNNN 0xB nnn
  | .rnd x nn     => mkXNN 0xC x nn
  | .drw x y n    => mkXYN 0xD x y n
  | .skp x        => mkXNN 0xE x 0x9E
  | .sknp x       => mkXNN 0xE x 0xA1
  | .ldVxDt x     => mkXNN 0xF x 0x07
  | .ldVxK x      => mkXNN 0xF x 0x0A
  | .ldDtVx x     => mkXNN 0xF x 0x15
  | .ldStVx x     => mkXNN 0xF x 0x18
  | .addIVx x     => mkXNN 0xF x 0x1E
  | .ldFVx x      => mkXNN 0xF x 0x29
  | .ldBVx x      => mkXNN 0xF x 0x33
  | .ldMemVx x    => mkXNN 0xF x 0x55
  | .ldVxMem x    => mkXNN 0xF x 0x65
  | .sys nnn      => mkNNN 0x0 nnn

/-! ## The mask and match columns of the opcode map (R75, R80, R81) -/

/-- The mask column of R75 for the instruction's row, with STRICT_DISPATCH as `strict` says (R80). -/
def rowMask (strict : Bool) : Instr → Word
  | .cls _        => if strict then 0xFFFF else 0xF0FF
  | .ret _        => if strict then 0xFFFF else 0xF0FF
  | .jp _         => 0xF000
  | .call _       => 0xF000
  | .seImm _ _    => 0xF000
  | .sneImm _ _   => 0xF000
  | .seReg _ _ _  => if strict then 0xF00F else 0xF000
  | .ldImm _ _    => 0xF000
  | .addImm _ _   => 0xF000
  | .ldReg _ _    => 0xF00F
  | .orReg _ _    => 0xF00F
  | .andReg _ _   => 0xF00F
  | .xorReg _ _   => 0xF00F
  | .addReg _ _   => 0xF00F
  | .sub _ _      => 0xF00F
  | .shr _ _      => 0xF00F
  | .subn _ _     => 0xF00F
  | .shl _ _      => 0xF00F
  | .sneReg _ _ _ => if strict then 0xF00F else 0xF000
  | .ldI _        => 0xF000
  | .jpV0 _       => 0xF000
  | .rnd _ _      => 0xF000
  | .drw _ _ _    => 0xF000
  | .skp _        => 0xF0FF
  | .sknp _       => 0xF0FF
  | .ldVxDt _     => 0xF0FF
  | .ldVxK _      => 0xF0FF
  | .ldDtVx _     => 0xF0FF
  | .ldStVx _     => 0xF0FF
  | .addIVx _     => 0xF0FF
  | .ldFVx _      => 0xF0FF
  | .ldBVx _      => 0xF0FF
  | .ldMemVx _    => 0xF0FF
  | .ldVxMem _    => 0xF0FF
  | .sys _        => 0xF000

/-- The match column of R75 for the instruction's row. -/
def rowMatch : Instr → Word
  | .cls _        => 0x00E0
  | .ret _        => 0x00EE
  | .jp _         => 0x1000
  | .call _       => 0x2000
  | .seImm _ _    => 0x3000
  | .sneImm _ _   => 0x4000
  | .seReg _ _ _  => 0x5000
  | .ldImm _ _    => 0x6000
  | .addImm _ _   => 0x7000
  | .ldReg _ _    => 0x8000
  | .orReg _ _    => 0x8001
  | .andReg _ _   => 0x8002
  | .xorReg _ _   => 0x8003
  | .addReg _ _   => 0x8004
  | .sub _ _      => 0x8005
  | .shr _ _      => 0x8006
  | .subn _ _     => 0x8007
  | .shl _ _      => 0x800E
  | .sneReg _ _ _ => 0x9000
  | .ldI _        => 0xA000
  | .jpV0 _       => 0xB000
  | .rnd _ _      => 0xC000
  | .drw _ _ _    => 0xD000
  | .skp _        => 0xE09E
  | .sknp _       => 0xE0A1
  | .ldVxDt _     => 0xF007
  | .ldVxK _      => 0xF00A
  | .ldDtVx _     => 0xF015
  | .ldStVx _     => 0xF018
  | .addIVx _     => 0xF01E
  | .ldFVx _      => 0xF029
  | .ldBVx _      => 0xF033
  | .ldMemVx _    => 0xF055
  | .ldVxMem _    => 0xF065
  | .sys _        => 0x0000

end Sys2Proof
end

