-- ==== Sys2Proof/Machine/State.lean ====
section
/-! DEFINITION. The Machine State (10_state.md R20), as plain data, the reasons a step can stop,
and the state after reset (R41, 70_reset_and_hazards.md R270). -/

namespace Sys2Proof.Machine

/-- The causes of a Fatal condition (60_exceptions.md R233). -/
inductive FatalCause where
  /-- CALL when SP = 16 (R122). -/
  | stackOverflow
  /-- RET when SP = 0 (R120). -/
  | stackUnderflow
  /-- A fetch with PC ≥ 0x0FFF, or an access of DRW, FX33, FX55 or FX65 at 0x1000 or above (R53). -/
  | addressOutOfRange
  /-- SKP or SKNP with V[x] > 0x0F (R210, R211). -/
  | keyIndexOutOfRange
  /-- FX33 or FX55 writing below 0x050 with FONT_WRITE_POLICY = fault (R54). -/
  | fontWrite
  deriving DecidableEq, Repr

/-- The run status (R37). -/
inductive Status where
  /-- No session: before the first Start, after a LoadError, after Stop. -/
  | idle
  | running
  /-- After a fatal condition; only Start and Stop leave it. -/
  | halted (cause : FatalCause)
  deriving DecidableEq, Repr

/-- The events the block emits (60_exceptions.md R248, R253). -/
inductive Event where
  /-- `UnknownOpcode(pc, word)` (R231). -/
  | unknownOpcode (pc word : Word)
  /-- `Fatal(cause, pc, word)`; the word is `none` when the fetch itself faulted (R232). -/
  | fatal (cause : FatalCause) (pc : Word) (word : Option Word)
  /-- `Beep` (R245). -/
  | beep
  /-- `LoadError(length)` (R271). -/
  | loadError (length : Nat)
  deriving DecidableEq, Repr

/-- The argument of Start: a byte buffer, or the indication that the image is unreadable, with the
length that the host gives for it (R248, R254; notes/assumptions/7.md). -/
inductive RomImage where
  | bytes (rom : List Byte)
  | unreadable (length : Nat)
  deriving DecidableEq, Repr

/-- The transactions by which the host drives the block (60_exceptions.md R248). -/
inductive Transaction where
  /-- `Start(rom)` (R270). -/
  | start (rom : RomImage)
  /-- `Cycle(rand8)` (R101). -/
  | cycle (rand8 : Byte)
  /-- `Tick()` (R244). -/
  | tick
  /-- `KeyWrite(k, b)` (R250). -/
  | keyWrite (k : Fin 16) (b : Bool)
  /-- `Stop()` (R274). -/
  | stop
  /-- The Renderer's read of `fb` and `redraw`, without effect (R249). -/
  | readDisplay
  deriving DecidableEq, Repr

/-- The bytes of memory that differ from what an unlisted address reads as, by rising address. -/
abbrev Memory := List Host.Cell

/-- The Machine State of R20, field by field, and after it the model's own fields. -/
structure State where
  /-- `mem`, 4096 bytes (R21, R50). Read it with `State.byteAt`. -/
  mem       : Memory
  /-- `V[0..15]` (R23). -/
  v         : Vector Byte 16
  /-- `I` (R26). -/
  i         : Word
  /-- `PC` (R27). -/
  pc        : Word
  /-- `stack[0..15]` (R28). -/
  stack     : Vector Word 16
  /-- `SP`, the stack depth, 0..16 (R28). -/
  sp        : Fin 17
  /-- `DT` (R30). -/
  dt        : Byte
  /-- `ST` (R31). -/
  st        : Byte
  /-- `key[0..15]` (R32). -/
  key       : Vector Bool 16
  /-- `fb`: row `py` holds the pixel of column `px` in its bit `px` (R33, R35). Read it with
  `State.pixel`. -/
  fb        : Vector (BitVec 64) 32
  /-- `redraw` (R36). -/
  redraw    : Bool
  /-- `status` (R37). -/
  status    : Status
  /-- MODEL'S OWN: the open parameters (R9). No step changes them (notes/assumptions/2.md). -/
  cfg       : Config
  /-- MODEL'S OWN: the `rand8` input of the Cycle in progress, where the host's transaction states
  it (R106; notes/assumptions/4.md). -/
  randIn    : Option Byte
  /-- MODEL'S OWN: the count of Cycles, to which the free random byte is applied where no
  transaction states it (R106; notes/assumptions/4.md). -/
  randCount : Nat
  /-- MODEL'S OWN: the host's transactions that are still to come, the next one first (R236,
  R248; notes/assumptions/5.md). -/
  pending   : List Transaction
  /-- MODEL'S OWN: the run's event history, newest first (R231; notes/assumptions/6.md). -/
  events    : List Event
  deriving DecidableEq, Repr

/-- The reasons for which the machine stops outside its own rules. There is NONE: every condition
of the spec is either reported (R231) or puts the block in the Halted status (R232), and both are
next states. Nothing raises a fault, which is safe: no behaviour is left out. -/
inductive Fault where
  deriving DecidableEq, Repr

/-- The reasons for which the model gives an instruction no meaning. -/
inductive Refusal where
  /-- Raised only by an arm of `exec` whose instruction has no meaning yet; no arm is left. Safe:
  the model stops where the hardware goes on. -/
  | notModelled (mnemonic : String)
  deriving DecidableEq, Repr

/-- What one instruction or one transaction answers. -/
abbrev Out := Host.Outcome State Fault Refusal

/-- The machine right after reset: after a successful Start of an image of length 0 (R41, R270;
notes/assumptions/1.md), with the default parameters and nothing pending. -/
def State.reset : State where
  mem       := []
  v         := Vector.replicate 16 0
  i         := 0x0000
  pc        := 0x0200
  stack     := Vector.replicate 16 0
  sp        := 0
  dt        := 0
  st        := 0
  key       := Vector.replicate 16 false
  fb        := Vector.replicate 32 0
  redraw    := false
  status    := .running
  cfg       := defaultConfig
  randIn    := none
  randCount := 0
  pending   := []
  events    := []

end Sys2Proof.Machine
end

