-- ==== Sys2Proof/Machine/Ops.lean ====
section
/-! DEFINITION. The named operations over memory, registers, the call stack, the keypad and the
framebuffer, and the two conditions every instruction shares: raising a Fatal condition and its
roll back (60_exceptions.md R232, 40_execution_cycle.md R107). There is no return from a condition
(R238). -/

namespace Sys2Proof.Machine

/-! ## Memory as a canonical list (10_state.md R21, 20_memory.md R50, R51) -/

/-- The number of bytes of memory (R8). -/
def memSize : Nat := 0x1000

/-- The first address past the font (R8, FONT_LIMIT). -/
def fontLimit : Nat := 0x050

/-- What an unlisted address reads as: its content at session start before the image is loaded,
FONT below 0x050 and 0x00 from there (R41, R51; notes/assumptions/10.md). -/
def Memory.unlisted (font : Font) (a : Nat) : Byte :=
  if h : a < 80 then font[a] else 0

/-- The byte at an address. -/
def Memory.read (font : Font) : Memory → Nat → Byte
  | [], a             => Memory.unlisted font a
  | (a', b') :: m, a  => if a = a' then b' else Memory.read font m a

/-- The entry for a byte, or none where it equals what the unlisted address reads as. -/
def Memory.cell (font : Font) (a : Nat) (b : Byte) : Memory :=
  if b = Memory.unlisted font a then [] else [(a, b)]

/-- Writes one byte and keeps the list canonical. -/
def Memory.write (font : Font) : Memory → Nat → Byte → Memory
  | [], a, b            => Memory.cell font a b
  | (a', b') :: m, a, b =>
    if a < a' then Memory.cell font a b ++ (a', b') :: m
    else if a = a' then Memory.cell font a b ++ m
    else (a', b') :: Memory.write font m a b

/-- Every address is at least `lo` and below 0x1000, the addresses rise strictly, and no entry
equals what its address reads as unlisted. -/
def Memory.wfFrom (font : Font) (lo : Nat) : Memory → Bool
  | []          => true
  | (a, b) :: m =>
    decide (lo ≤ a) && decide (a < memSize) && decide (b ≠ Memory.unlisted font a)
      && Memory.wfFrom font (a + 1) m

/-- The canonical form of a memory. -/
def Memory.wf (font : Font) (m : Memory) : Bool := Memory.wfFrom font 0 m

/-- The memory that holds `bytes` from address `a` on and lists nothing else. -/
def Memory.image (font : Font) : Nat → List Byte → Memory
  | _, []      => []
  | a, b :: bs => Memory.cell font a b ++ Memory.image font (a + 1) bs

/-! ## Bytes of the state -/

/-- The byte of memory at an address, under the state's FONT. -/
def State.byteAt (s : State) (a : Nat) : Byte := Memory.read s.cfg.font s.mem a

/-- The bytes at `base`, `base + 1`, … , `n` of them. -/
def State.bytesAt (s : State) (base n : Nat) : List Byte :=
  (List.range n).map fun k => s.byteAt (base + k)

/-- Stores a byte without any check. -/
def State.pokeByte (s : State) (a : Nat) (b : Byte) : State :=
  { s with mem := Memory.write s.cfg.font s.mem a b }

/-- The check of MemRead (R53). -/
def readCheck (a : Nat) : Option FatalCause :=
  if 0x1000 ≤ a then some .addressOutOfRange else none

/-- The check of MemWrite, the range before the font (R54, R55). -/
def writeCheck (c : Config) (a : Nat) : Option FatalCause :=
  if 0x1000 ≤ a then some .addressOutOfRange
  else if a < 0x050 ∧ c.fontWrite = .fault then some .fontWrite
  else none

/-- The cause of the lowest address of `base`, …, `base + n - 1` that fails its check, if any
does (R55). The addresses are exact and not wrapped (R52). -/
def firstFault (check : Nat → Option FatalCause) (base n : Nat) : Option FatalCause :=
  ((List.range n).map fun k => base + k).findSome? check

/-- The store of MemWrite at an address that passed its check (R54): below 0x050 it happens only
with FONT_WRITE_POLICY = write. -/
def State.storeByte (s : State) (a : Nat) (b : Byte) : State :=
  if a < 0x050 ∧ s.cfg.fontWrite ≠ .write then s else s.pokeByte a b

/-- Stores bytes at `base`, `base + 1`, … in that order. -/
def State.storeBytes (s : State) (base : Nat) : List Byte → State
  | []      => s
  | b :: bs => (s.storeByte base b).storeBytes (base + 1) bs

/-! ## Registers (10_state.md R23, R26, R27, R30, R31) -/

/-- Reads `V[x]`. -/
def State.getV (s : State) (x : Nibble) : Byte := s.v[x.toNat]'x.isLt

/-- Writes `V[x]`. -/
def State.setV (s : State) (x : Nibble) (b : Byte) : State :=
  { s with v := s.v.set x.toNat b x.isLt }

/-- The values of `V[0]`, …, `V[n-1]`. -/
def State.firstRegs (s : State) (n : Nat) : List Byte :=
  (List.range n).map fun k => s.getV (BitVec.ofNat 4 k)

/-- Writes `V[k]`, `V[k+1]`, … in that order. -/
def State.setRegs (s : State) (k : Nat) : List Byte → State
  | []      => s
  | b :: bs => (s.setV (BitVec.ofNat 4 k) b).setRegs (k + 1) bs

/-- Writes `I`. -/
def State.setI (s : State) (w : Word) : State := { s with i := w }

/-- Writes `PC`. -/
def State.setPc (s : State) (w : Word) : State := { s with pc := w }

/-- `PC <- PC + 2` modulo 65536 (40_execution_cycle.md R103). -/
def State.advance (s : State) : State := s.setPc (s.pc + 2)

/-- `PC <- PC + 4` if the condition holds, else `PC + 2` (R104). -/
def State.skipIf (s : State) (cond : Bool) : State :=
  s.setPc (if cond then s.pc + 4 else s.pc + 2)

/-- Writes `DT`. -/
def State.setDt (s : State) (b : Byte) : State := { s with dt := b }

/-- Writes `ST`. -/
def State.setSt (s : State) (b : Byte) : State := { s with st := b }

/-! ## The call stack (R28, R29, 41_control_flow.md R120, R122) -/

/-- Pushes an entry; none when all 16 are live. -/
def State.push (s : State) (w : Word) : Option State :=
  if h : s.sp.val < 16 then
    some { s with stack := s.stack.set s.sp.val w h, sp := ⟨s.sp.val + 1, by omega⟩ }
  else none

/-- Pops the top entry, which stays in the array (R29); none when the stack is empty. -/
def State.pop (s : State) : Option (Word × State) :=
  if h : 0 < s.sp.val then
    some (s.stack[s.sp.val - 1]'(by omega), { s with sp := ⟨s.sp.val - 1, by omega⟩ })
  else none

/-! ## The keypad latches (R32) -/

/-- Reads `key[k]`. -/
def State.getKey (s : State) (k : Fin 16) : Bool := s.key[k.val]'k.isLt

/-- Writes `key[k]`. -/
def State.setKey (s : State) (k : Fin 16) (b : Bool) : State :=
  { s with key := s.key.set k.val b k.isLt }

/-- The least `k` with `key[k]` set (45_keypad_timers.md R213, D18). -/
def State.firstKey (s : State) : Option (Fin 16) :=
  (List.finRange 16).find? fun k => s.getKey k

/-! ## The framebuffer (R33, R35) and the redraw flag (R36) -/

/-- The framebuffer's rows of 64 pixels. -/
abbrev Rows := Vector (BitVec 64) 32

/-- A pixel of the grid; false outside it. -/
def Rows.pixel (fb : Rows) (px py : Nat) : Bool :=
  if h : py < 32 then (fb[py]'h).getLsbD px else false

/-- Inverts a pixel of the grid; nothing outside it. -/
def Rows.toggle (fb : Rows) (px py : Nat) : Rows :=
  if h : py < 32 then fb.set py (fb[py]'h ^^^ (1#64 <<< px)) h else fb

/-- `fb[px, py]` (R11, R35). -/
def State.pixel (s : State) (px py : Nat) : Bool := Rows.pixel s.fb px py

/-- `fb[k]`, the pixel at linear index `k` (R35). -/
def State.fbBit (s : State) (k : Nat) : Bool := s.pixel (k % 64) (k / 64)

/-- Replaces the framebuffer. -/
def State.setFb (s : State) (fb : Rows) : State := { s with fb := fb }

/-- Writes the redraw flag. -/
def State.setRedraw (s : State) (b : Bool) : State := { s with redraw := b }

/-! ## Status, events, and conditions (60_exceptions.md R230 to R238) -/

/-- Writes the run status (R37). -/
def State.setStatus (s : State) (st : Status) : State := { s with status := st }

/-- Records an event; no event is ever removed (R231). -/
def State.emit (s : State) (e : Event) : State := { s with events := e :: s.events }

/-- TAKING A FATAL CONDITION: the status becomes `Halted(cause)` and the event
`Fatal(cause, pc, word)` is emitted, with the PC of the fetch; nothing else changes (R232,
40_execution_cycle.md R107). -/
def State.raiseFatal (s : State) (cause : FatalCause) (word : Option Word) : State :=
  (s.emit (.fatal cause s.pc word)).setStatus (.halted cause)

/-- An instruction that checks first: it raises the cause on its own word, or completes in `t`
(R55, R107). -/
def checked (fault : Option FatalCause) (i : Instr) (s t : State) : Out :=
  match fault with
  | some cause => .next (s.raiseFatal cause (some (encode i)))
  | none       => .next t

/-- The roll back of a Cycle (R107): when `after` is Halted, every field is as it was before the
Cycle, but for the status and the event history. -/
def rollback (before after : State) : State :=
  match after.status with
  | .halted _ => { before with status := after.status, events := after.events }
  | .idle     => after
  | .running  => after

end Sys2Proof.Machine
end

