-- ==== Sys2Proof/Machine/Operands.lean ====
section
/-! DEFINITION. The operand forms (30_encoding.md R72): what an instruction's fields name. Every
value is unsigned and nothing is sign-extended. -/

namespace Sys2Proof.Machine

/-- `zext_16(nnn)`, a jump target or an index value (R72). -/
def zext16 (nnn : Addr) : Word := nnn.setWidth 16

/-- A register's byte widened to 16 bits, for the sums of BNNN and FX1E. -/
def byteToWord (b : Byte) : Word := b.setWidth 16

/-- The number of VF (R11). -/
def vf : Nibble := 0xF

/-- The address in `I`, as an exact integer (20_memory.md R52). -/
def indexAddr (s : State) : Nat := s.i.toNat

/-- How many registers FX55 and FX65 transfer: `V[0]` to `V[x]` (R174, R175). -/
def regCount (x : Nibble) : Nat := x.toNat + 1

/-- How many rows DXYN draws (R191). -/
def spriteHeight (n : Nibble) : Nat := n.toNat

/-- The key that a register's value names; none when it is over 0x0F (R210, R211). -/
def keyOperand (b : Byte) : Option (Fin 16) :=
  if h : b.toNat < 16 then some ⟨b.toNat, h⟩ else none

/-- The random byte of the Cycle (40_execution_cycle.md R106): the host's, where its transaction
states one, else a free value. -/
def rand8 (s : State) : Byte :=
  match s.randIn with
  | some r => r
  | none   => Config.freeRand8 s.randCount

/-- The address of a value's glyph, `V[x] * 5`, with no mask (43_index_memory.md R172). -/
def glyphAddr (b : Byte) : Word := byteToWord b * 5

/-- The hundreds, tens and ones digits of a byte (43_index_memory.md R173). -/
def bcdDigits (b : Byte) : List Byte := [b / 100, b / 10 % 10, b % 10]

end Sys2Proof.Machine
end

