-- ==== Sys2Proof/Machine/Flags.lean ====
section
/-! DEFINITION. The values written to VF as a flag (10_state.md R40), and the one operation that
writes a result and a flag (42_register_alu.md R153). The sums and comparisons are exact. -/

namespace Sys2Proof.Machine

/-- A flag of 0 or 1. -/
def bitFlag (b : Bool) : Byte := if b then 1 else 0

/-- 8XY4: 1 if `Vx + Vy > 255` else 0 (R146). -/
def addFlag (a b : Byte) : Byte := bitFlag (decide (a.toNat + b.toNat > 255))

/-- 8XY5: 0 if `Vy > Vx` else 1 (R147). -/
def subFlag (a b : Byte) : Byte := bitFlag (!decide (b.toNat > a.toNat))

/-- 8XY6: `Vy & 0x01` (R148). -/
def shrFlag (b : Byte) : Byte := b &&& 0x01

/-- 8XY7: 0 if `Vx > Vy` else 1 (R149). -/
def subnFlag (a b : Byte) : Byte := bitFlag (!decide (a.toNat > b.toNat))

/-- 8XYE: `Vy & 0x80`, not normalized (R150). -/
def shlFlag (b : Byte) : Byte := b &&& 0x80

/-- DXYN: 1 if some pixel went from 1 to 0 else 0 (44_display.md R194). -/
def collisionFlag (hit : Bool) : Byte := bitFlag hit

/-- `write_result_and_flag(x, r, f)`: the order of the two writes is FLAG_ORDER's (R153). -/
def writeResultAndFlag (s : State) (x : Nibble) (r f : Byte) : State :=
  match s.cfg.flagOrder with
  | .flagLast   => (s.setV x r).setV vf f
  | .resultLast => (s.setV vf f).setV x r

end Sys2Proof.Machine
end

