-- ==== Sys2Proof/Machine/ControlFlow.lean ====
section
/-! DEFINITION. Return, jump, call, the register and immediate skips, jump+offset
(41_control_flow.md R120 to R128), and the conditional SYS (30_encoding.md R81). PC is the address
of the instruction itself while it executes (10_state.md R27). -/

namespace Sys2Proof.Machine

/-- RET (R120): `PC <- popped + 2`; STACK_UNDERFLOW when SP = 0. -/
def execRet (u : Nibble) (s : State) : Out :=
  match s.pop with
  | none        => .next (s.raiseFatal .stackUnderflow (some (encode (.ret u))))
  | some (a, t) => .next (t.setPc (a + 2))

/-- JP (R121). -/
def execJp (nnn : Addr) (s : State) : Out := .next (s.setPc (zext16 nnn))

/-- CALL (R122): pushes the CALL's own address; STACK_OVERFLOW when SP = 16. -/
def execCall (nnn : Addr) (s : State) : Out :=
  match s.push s.pc with
  | none   => .next (s.raiseFatal .stackOverflow (some (encode (.call nnn))))
  | some t => .next (t.setPc (zext16 nnn))

/-- SE Vx, nn (R123). -/
def execSeImm (x : Nibble) (nn : Byte) (s : State) : Out := .next (s.skipIf (s.getV x == nn))

/-- SNE Vx, nn (R124). -/
def execSneImm (x : Nibble) (nn : Byte) (s : State) : Out := .next (s.skipIf (s.getV x != nn))

/-- SE Vx, Vy (R125). -/
def execSeReg (x y : Nibble) (s : State) : Out := .next (s.skipIf (s.getV x == s.getV y))

/-- SNE Vx, Vy (R126). -/
def execSneReg (x y : Nibble) (s : State) : Out := .next (s.skipIf (s.getV x != s.getV y))

/-- JP V0, nnn (R127): `PC <- nnn + V0 + 2`. -/
def execJpV0 (nnn : Addr) (s : State) : Out :=
  .next (s.setPc (zext16 nnn + byteToWord (s.getV 0) + 2))

/-- SYS (R81): nothing but `PC <- PC + 2`. -/
def execSys (s : State) : Out := .next s.advance

end Sys2Proof.Machine
end

