-- ==== Sys2Proof/Machine/Display.lean ====
section
/-! DEFINITION. Clear-screen and draw (44_display.md R190 to R196). -/

namespace Sys2Proof.Machine

/-- The grid's width and height (00_scope.md R8). -/
def fbWidth : Nat := 64
def fbHeight : Nat := 32

/-- Every pixel dark. -/
def clearRows : Rows := Vector.replicate 32 0

/-- CLS (R190). -/
def execCls (s : State) : Out :=
  let t := s.setFb clearRows
  .next (if s.cfg.clsSetsRedraw then (t.setRedraw true).advance else t.advance)

/-- The grid pixels, as (column, row), that one sprite byte toggles on row `py` from column `px0`:
bit 7 is the leftmost (R192), and pixels outside the grid are skipped, not wrapped (R193). -/
def rowTargets (px0 py : Nat) (row : Byte) : List (Nat × Nat) :=
  (List.range 8).filterMap fun c =>
    if row.getLsbD (7 - c) ∧ px0 + c < fbWidth ∧ py < fbHeight then some (px0 + c, py) else none

/-- The pixels that a sprite toggles, its first byte on row `py0` (R191). -/
def spriteTargets (px0 py0 : Nat) : List Byte → List (Nat × Nat)
  | []          => []
  | row :: rows => rowTargets px0 py0 row ++ spriteTargets px0 (py0 + 1) rows

/-- One pixel of the draw loop: the framebuffer and the collision so far (R191, R194). -/
def drawPixel (acc : Rows × Bool) (p : Nat × Nat) : Rows × Bool :=
  (acc.1.toggle p.1 p.2, acc.2 || acc.1.pixel p.1 p.2)

/-- The draw loop over a sprite's bytes: the framebuffer after it, and whether some pixel went
from 1 to 0 (R191). -/
def drawSprite (fb : Rows) (px0 py0 : Nat) (sprite : List Byte) : Rows × Bool :=
  (spriteTargets px0 py0 sprite).foldl drawPixel (fb, false)

/-- The draw that DRW performs in a state: its coordinates are the registers' values, sampled
before anything is written. -/
def drawResult (x y n : Nibble) (s : State) : Rows × Bool :=
  drawSprite s.fb (s.getV x).toNat (s.getV y).toNat (s.bytesAt (indexAddr s) (spriteHeight n))

/-- DRW (R191): the pixels, then VF, then the redraw flag (R195). -/
def execDrw (x y n : Nibble) (s : State) : Out :=
  checked (firstFault readCheck (indexAddr s) (spriteHeight n)) (.drw x y n) s
    (((s.setFb (drawResult x y n s).1).setV vf (collisionFlag (drawResult x y n s).2)).setRedraw
      true).advance

end Sys2Proof.Machine
end

