-- ==== Sys2Proof/Machine/IndexMemory.lean ====
section
/-! DEFINITION. The writers of `I` and the transfers between registers and memory
(43_index_memory.md R170 to R175). The three transfers check every address before they write
anything (20_memory.md R55) and leave `I` unchanged (D13). -/

namespace Sys2Proof.Machine

/-- LD I, nnn (R170). -/
def execLdI (nnn : Addr) (s : State) : Out := .next (s.setI (zext16 nnn)).advance

/-- ADD I, Vx (R171): modulo 65536, no flag. -/
def execAddIVx (x : Nibble) (s : State) : Out :=
  .next (s.setI (s.i + byteToWord (s.getV x))).advance

/-- LD F, Vx (R172). -/
def execLdFVx (x : Nibble) (s : State) : Out := .next (s.setI (glyphAddr (s.getV x))).advance

/-- LD B, Vx (R173): the three digits at `I`, `I+1`, `I+2`. -/
def execLdBVx (x : Nibble) (s : State) : Out :=
  checked (firstFault (writeCheck s.cfg) (indexAddr s) 3) (.ldBVx x) s
    (s.storeBytes (indexAddr s) (bcdDigits (s.getV x))).advance

/-- LD [I], Vx (R174): `V[0]` to `V[x]` to memory from `I`. -/
def execLdMemVx (x : Nibble) (s : State) : Out :=
  checked (firstFault (writeCheck s.cfg) (indexAddr s) (regCount x)) (.ldMemVx x) s
    (s.storeBytes (indexAddr s) (s.firstRegs (regCount x))).advance

/-- LD Vx, [I] (R175): memory from `I` to `V[0]` to `V[x]`. -/
def execLdVxMem (x : Nibble) (s : State) : Out :=
  checked (firstFault readCheck (indexAddr s) (regCount x)) (.ldVxMem x) s
    (s.setRegs 0 (s.bytesAt (indexAddr s) (regCount x))).advance

end Sys2Proof.Machine
end

