-- ==== Sys2Proof/Machine/KeypadTimers.lean ====
section
/-! DEFINITION. The key skips, the key wait and the timer transfers (45_keypad_timers.md R210 to
R215). -/

namespace Sys2Proof.Machine

/-- SKP Vx (R210): skips if the key is pressed, and clears the latch it finds set. -/
def execSkp (x : Nibble) (s : State) : Out :=
  match keyOperand (s.getV x) with
  | none   => .next (s.raiseFatal .keyIndexOutOfRange (some (encode (.skp x))))
  | some k => .next (if s.getKey k then (s.setKey k false).skipIf true else s.skipIf false)

/-- SKNP Vx (R211): skips if the key is not pressed, and clears the latch it finds set. -/
def execSknp (x : Nibble) (s : State) : Out :=
  match keyOperand (s.getV x) with
  | none   => .next (s.raiseFatal .keyIndexOutOfRange (some (encode (.sknp x))))
  | some k => .next (if s.getKey k then (s.setKey k false).skipIf false else s.skipIf true)

/-- LD Vx, DT (R212). -/
def execLdVxDt (x : Nibble) (s : State) : Out := .next (s.setV x s.dt).advance

/-- LD Vx, K (R213): the least set key, which is cleared; with none set, nothing changes and PC
does not advance. -/
def execLdVxK (x : Nibble) (s : State) : Out :=
  match s.firstKey with
  | some k => .next ((s.setV x (BitVec.ofNat 8 k.val)).setKey k false).advance
  | none   => .next s

/-- LD DT, Vx (R214). -/
def execLdDtVx (x : Nibble) (s : State) : Out := .next (s.setDt (s.getV x)).advance

/-- LD ST, Vx (R215): never beeps. -/
def execLdStVx (x : Nibble) (s : State) : Out := .next (s.setSt (s.getV x)).advance

end Sys2Proof.Machine
end

