-- ==== Sys2Proof/Machine/RegisterAlu.lean ====
section
/-! DEFINITION. The immediate loads, the ALU operations of class 0x8, and random
(42_register_alu.md R140 to R153). All arithmetic is unsigned and wraps modulo 256 (R152); every
register operand is read before anything is written (R153). -/

namespace Sys2Proof.Machine

/-- The end shared by the instructions whose only effect is on one register: `V[x] <- r`, then
`PC <- PC + 2`. -/
def finishReg (s : State) (x : Nibble) (r : Byte) : Out := .next (s.setV x r).advance

/-- The end shared by the five flag-writing operations (R153), then `PC <- PC + 2`. -/
def finishFlag (s : State) (x : Nibble) (r f : Byte) : Out :=
  .next (writeResultAndFlag s x r f).advance

/-- LD Vx, nn (R140). -/
def execLdImm (x : Nibble) (nn : Byte) (s : State) : Out := finishReg s x nn

/-- ADD Vx, nn (R141): no VF touch. -/
def execAddImm (x : Nibble) (nn : Byte) (s : State) : Out := finishReg s x (s.getV x + nn)

/-- LD Vx, Vy (R142). -/
def execLdReg (x y : Nibble) (s : State) : Out := finishReg s x (s.getV y)

/-- OR Vx, Vy (R143). -/
def execOrReg (x y : Nibble) (s : State) : Out := finishReg s x (s.getV x ||| s.getV y)

/-- AND Vx, Vy (R144). -/
def execAndReg (x y : Nibble) (s : State) : Out := finishReg s x (s.getV x &&& s.getV y)

/-- XOR Vx, Vy (R145). -/
def execXorReg (x y : Nibble) (s : State) : Out := finishReg s x (s.getV x ^^^ s.getV y)

/-- ADD Vx, Vy (R146). -/
def execAddReg (x y : Nibble) (s : State) : Out :=
  finishFlag s x (s.getV x + s.getV y) (addFlag (s.getV x) (s.getV y))

/-- SUB Vx, Vy (R147). -/
def execSub (x y : Nibble) (s : State) : Out :=
  finishFlag s x (s.getV x - s.getV y) (subFlag (s.getV x) (s.getV y))

/-- SHR Vx, Vy (R148): shifts Vy; the old Vx is not used. -/
def execShr (x y : Nibble) (s : State) : Out :=
  finishFlag s x (s.getV y >>> 1) (shrFlag (s.getV y))

/-- SUBN Vx, Vy (R149). -/
def execSubn (x y : Nibble) (s : State) : Out :=
  finishFlag s x (s.getV y - s.getV x) (subnFlag (s.getV x) (s.getV y))

/-- SHL Vx, Vy (R150): shifts Vy; the old Vx is not used. -/
def execShl (x y : Nibble) (s : State) : Out :=
  finishFlag s x (s.getV y <<< 1) (shlFlag (s.getV y))

/-- RND Vx, nn (R151): `rand8 & nn`. -/
def execRnd (x : Nibble) (nn : Byte) (s : State) : Out := finishReg s x (rand8 s &&& nn)

end Sys2Proof.Machine
end

