-- ==== Sys2Proof/Machine/Cycle.lean ====
section
/-! DEFINITION. The Cycle: fetch, the redraw clear, decode, execute (40_execution_cycle.md R100 to
R109). -/

namespace Sys2Proof.Machine

/-- The two bytes at PC and PC + 1 as a word (30_encoding.md R70). -/
def fetchWord (s : State) : Word :=
  wordOfBytes (s.byteAt s.pc.toNat) (s.byteAt (s.pc.toNat + 1))

/-- The checks of the fetch's two reads, at PC and PC + 1, not wrapped (R70, R102). -/
def fetchFault (s : State) : Option FatalCause := firstFault readCheck s.pc.toNat 2

/-- The start of execution: the redraw flag is cleared (R101) and the Cycle's random byte is at
hand, the host's `r` or a free one (R106). -/
def beginCycle (r : Option Byte) (s : State) : State :=
  { s with redraw := false, randIn := r, randCount := s.randCount + 1 }

/-- UNKNOWN_PC_STEP as a number (R105). -/
def unknownStep (c : Config) : Word :=
  match c.unknownPcStep with
  | .zero => 0
  | .two  => 2

/-- `unknown_opcode(word)` (R105, 60_exceptions.md R231). -/
def unknownOpcode (word : Word) (s : State) : State :=
  (s.emit (.unknownOpcode s.pc word)).setPc (s.pc + unknownStep s.cfg)

/-- The end of a Cycle that began in `before`: a Fatal condition rolls it back (R107). -/
def endCycle (before : State) (o : Out) : Out :=
  match o with
  | .next after => .next (rollback before after)
  | .fault r    => .fault r
  | .refused r  => .refused r

/-- The Cycle after a fetch without fault: decode, then execute or report (R101). -/
def runWord (r : Option Byte) (s : State) (word : Word) : Out :=
  match decodeWord s.cfg word with
  | .unknown w => .next (unknownOpcode w (beginCycle r s))
  | .instr i   => endCycle s (exec i (beginCycle r s))

/-- `Cycle(rand8)` (R101); `none` stands for a byte that the host does not state. -/
def cycle (r : Option Byte) (s : State) : Out :=
  match s.status with
  | .idle     => .next s
  | .halted _ => .next s
  | .running  =>
    match fetchFault s with
    | some cause => .next (s.raiseFatal cause none)
    | none       => runWord r s (fetchWord s)

end Sys2Proof.Machine
end

