-- ==== Sys2Proof/Machine/Session.lean ====
section
/-! DEFINITION. The host's transactions other than the Cycle: Start and Stop
(70_reset_and_hazards.md R270 to R274), Tick (60_exceptions.md R244 to R246), KeyWrite (R250) and
the Renderer's read (R249), and the one that performs any of them (R248). -/

namespace Sys2Proof.Machine

/-- ROM_MAX (00_scope.md R8, R271). -/
def romMax : Nat := 3583

/-- PROG_BASE (R8). -/
def progBase : Nat := 0x200

/-- The state before the first Start: Idle (R272). No other field is observable then (R271;
notes/assumptions/20.md). -/
def powerOn : State := State.reset.setStatus .idle

/-- A failed Start: the status is Idle and LoadError is emitted (R271). -/
def loadError (len : Nat) (s : State) : State := (s.setStatus .idle).emit (.loadError len)

/-- A successful Start: every field at its value in R41, with the image from 0x200 (R270). The
parameters, the event history and the host's pending transactions are no fields of the Machine
State and stay. -/
def newSession (rom : List Byte) (s : State) : State :=
  { State.reset with
    mem       := Memory.image s.cfg.font progBase rom
    cfg       := s.cfg
    randIn    := s.randIn
    randCount := s.randCount
    pending   := s.pending
    events    := s.events }

/-- `Start(rom)` (R270, R271). -/
def start (rom : RomImage) (s : State) : State :=
  match rom with
  | .unreadable len => loadError len s
  | .bytes b        => if romMax < b.length then loadError b.length s else newSession b s

/-- `Stop()` (R274). -/
def stop (s : State) : State := s.setStatus .idle

/-- One decrement toward zero, never below it (R244). -/
def countDown (t : Byte) : Byte := if t = 0 then 0 else t - 1

/-- A Tick's effect while the block runs: both timers count down, and ST going from 1 to 0 emits
one Beep (R244, R245). -/
def tickRunning (s : State) : State :=
  let t := (s.setDt (countDown s.dt)).setSt (countDown s.st)
  if s.st = 1 then t.emit .beep else t

/-- `Tick()` (R244, R246). -/
def tick (s : State) : State :=
  match s.status with
  | .idle     => s
  | .halted _ => s
  | .running  => tickRunning s

/-- `KeyWrite(k, b)`, in every status (R250). -/
def keyWrite (k : Fin 16) (b : Bool) (s : State) : State := s.setKey k b

/-- Performs one transaction (R248). -/
def perform (t : Transaction) (s : State) : Out :=
  match t with
  | .start rom    => .next (start rom s)
  | .cycle r      => cycle (some r) s
  | .tick         => .next (tick s)
  | .keyWrite k b => .next (keyWrite k b s)
  | .stop         => .next (stop s)
  | .readDisplay  => .next s

/-- The state with the first pending transaction taken off the list. -/
def takePending (s : State) : State := { s with pending := s.pending.tail }

/-- The next transaction of the run: the first pending one; with none pending, a Cycle whose
random byte is free (R236; notes/assumptions/5.md). -/
def nextTransaction (s : State) : Out :=
  match s.pending with
  | []     => cycle none s
  | t :: _ => perform t (takePending s)

/-! ## Placing a word where the next Cycle fetches it -/

/-- PC, where the fetch of a word at it does not fault, else the program's base. -/
def fetchablePc (pc : Word) : Word :=
  if pc.toNat + 1 < memSize then pc else BitVec.ofNat 16 progBase

/-- The parameters, with SYS selected where that is what the word needs to be an instruction
(30_encoding.md R81; notes/assumptions/13.md). -/
def selectSys (c : Config) (w : Word) : Config :=
  match decodeWord c w with
  | .instr _   => c
  | .unknown _ =>
    match decodeWord { c with sysPolicy := .nop } w with
    | .instr _   => { c with sysPolicy := .nop }
    | .unknown _ => c

/-- Stores a word, big-endian, at an address. -/
def pokeWord (s : State) (a : Nat) (w : Word) : State :=
  (s.pokeByte a (highByte w)).pokeByte (a + 1) (lowByte w)

/-- The state whose next step is a Cycle that fetches this word: the word stands at PC, the block
runs, and no other transaction comes first (notes/assumptions/14.md). -/
def placeFetchWord (s : State) (w : Word) : State :=
  let t := { s with
    pc      := fetchablePc s.pc
    status  := .running
    pending := []
    cfg     := selectSys s.cfg w }
  pokeWord t t.pc.toNat w

end Sys2Proof.Machine
end

