-- ==== Sys2Proof/Machine/Step.lean ====
section
/-! DEFINITION. One step of the machine: one transaction of the host (60_exceptions.md R236,
R248). -/

namespace Sys2Proof.Machine

/-- The next transaction of the run. -/
def step (s : State) : Host.Outcome State Fault Refusal := nextTransaction s

/-- The state whose next step fetches and runs the instruction with these bits
(notes/assumptions/13.md, 14.md). -/
def State.withFetchWord (s : State) (nbits w : Nat) : State :=
  placeFetchWord s (tableWord nbits w)

end Sys2Proof.Machine
end

