-- ==== Sys2Proof/Machine/Interface.lean ====
section
/-! DEFINITION. What the host sees of the block: the condition codes (60_exceptions.md R233) and
the values that the output ports of R254 show. No rule of the machine reads any of them. -/

namespace Sys2Proof.Machine

/-- The code of a fatal cause (R233). -/
def FatalCause.code : FatalCause → Nat
  | .stackOverflow      => 2
  | .stackUnderflow     => 3
  | .addressOutOfRange  => 4
  | .keyIndexOutOfRange => 5
  | .fontWrite          => 6

/-- The code of an event: `err_code`; a Beep is no condition, code 0 (R233, R254). -/
def Event.code : Event → Nat
  | .beep              => 0
  | .unknownOpcode _ _ => 1
  | .fatal cause _ _   => cause.code
  | .loadError _       => 7

/-- `err_pc`: the PC that the event records, where it records one (R233, R254). -/
def Event.pc : Event → Option Word
  | .unknownOpcode pc _ => some pc
  | .fatal _ pc _       => some pc
  | .beep               => none
  | .loadError _        => none

/-- `err_word` with `err_word_valid`: the word that the event records, where it records one. -/
def Event.word : Event → Option Word
  | .unknownOpcode _ word => some word
  | .fatal _ _ word       => word
  | .beep                 => none
  | .loadError _          => none

/-- `status_q`: 0 Idle, 1 Running, 2 Halted (R254). -/
def Status.code : Status → Nat
  | .idle     => 0
  | .running  => 1
  | .halted _ => 2

/-- What the Renderer reads: the framebuffer by linear index, and the redraw flag (R249). -/
def State.display (s : State) : List Bool × Bool :=
  ((List.range 2048).map s.fbBit, s.redraw)

/-- The events that a transaction emitted, newest first, from the states before and after it. -/
def emitted (before after : State) : List Event :=
  after.events.take (after.events.length - before.events.length)

end Sys2Proof.Machine
end

