-- ==== Sys2Proof/Safety.lean ====
section
/-! DEFINITION. The terms that claims about the machine use: the invariant of its states, what a
run without a condition is, and what a transition leaves unchanged. -/

namespace Sys2Proof.Machine

/-- The memory is in its canonical form. Memory content is otherwise unconstrained, and every
other field of the state is bounded by its type. -/
def State.MemOk (s : State) : Prop := Memory.wf s.cfg.font s.mem = true

/-- Every live return address is one that a fetch without fault can have (41_control_flow.md
R120: "A pushed value is the address of a successfully fetched word, so it is at most 0x0FFE"). -/
def State.StackOk (s : State) : Prop :=
  ∀ k : Fin 16, k.val < s.sp.val → s.stack[k].toNat ≤ 0x0FFE

/-- The block has not met a fatal condition (60_exceptions.md R232). -/
def State.NotHalted (s : State) : Prop := ∀ c, s.status ≠ .halted c

/-- The block executes cycles (10_state.md R37). -/
def State.Running (s : State) : Prop := s.status = .running

/-- No unknown opcode was met: the premise that R231 asks of a claim that should not speak of runs
that hit one. -/
def State.NoUnknownOpcode (s : State) : Prop := ∀ pc w, Event.unknownOpcode pc w ∉ s.events

/-- A run is safe at a state: no fatal condition and no unknown opcode was met. -/
def State.Safe (s : State) : Prop :=
  s.NotHalted ∧ s.NoUnknownOpcode ∧ ∀ c pc w, Event.fatal c pc w ∉ s.events

/-- A part of the state that a transition may write: a register, a byte of memory, a stack entry,
a key latch, a pixel, and each of the other fields. -/
inductive Part where
  | byte (a : Nat)
  | reg (x : Nibble)
  | index
  | pc
  | stackEntry (k : Fin 16)
  | sp
  | dt
  | st
  | key (k : Fin 16)
  | pixel (px py : Nat)
  | redraw
  | status
  | events
  | params
  | random
  | pending
  deriving DecidableEq, Repr

/-- Two states agree on a part. -/
def Part.Same (s t : State) : Part → Prop
  | .byte a       => t.byteAt a = s.byteAt a
  | .reg x        => t.getV x = s.getV x
  | .index        => t.i = s.i
  | .pc           => t.pc = s.pc
  | .stackEntry k => t.stack[k] = s.stack[k]
  | .sp           => t.sp = s.sp
  | .dt           => t.dt = s.dt
  | .st           => t.st = s.st
  | .key k        => t.getKey k = s.getKey k
  | .pixel px py  => t.pixel px py = s.pixel px py
  | .redraw       => t.redraw = s.redraw
  | .status       => t.status = s.status
  | .events       => t.events = s.events
  | .params       => t.cfg = s.cfg
  | .random       => t.randIn = s.randIn ∧ t.randCount = s.randCount
  | .pending      => t.pending = s.pending

/-- `t` agrees with `s` on every part outside `W`. -/
def UnchangedOutside (W : Part → Prop) (s t : State) : Prop := ∀ p, ¬ W p → p.Same s t

/-- `t` agrees with `s` on every part that is not listed. -/
def UnchangedBut (ps : List Part) (s t : State) : Prop := UnchangedOutside (fun p => p ∈ ps) s t

/-! ## What comes next -/

/-- The next transaction is a Cycle; `r` is its random byte, none where no transaction states it. -/
def State.NextCycle (s : State) (r : Option Byte) : Prop :=
  (s.pending = [] ∧ r = none) ∨ ∃ b ts, s.pending = .cycle b :: ts ∧ r = some b

/-- The next transaction is this pending one. -/
def State.NextIs (s : State) (x : Transaction) : Prop := s.pending.head? = some x

/-- The word at PC, big-endian, as a number put in 16 bits (30_encoding.md R70). -/
def State.WordAtPc (s : State) : Word :=
  BitVec.ofNat 16 (256 * (s.byteAt s.pc.toNat).toNat + (s.byteAt (s.pc.toNat + 1)).toNat)

/-- A Cycle of a running block fetches without fault and decodes this instruction. -/
def State.AboutToRun (s : State) (r : Option Byte) (i : Instr) : Prop :=
  s.Running ∧ s.NextCycle r ∧ s.pc.toNat + 1 ≤ 0xFFF ∧ decodeWord s.cfg s.WordAtPc = .instr i

/-! ## Shapes of results -/

/-- `PC + d` modulo 65536 (40_execution_cycle.md R103, R104). -/
def PcMoves (d : Nat) (s t : State) : Prop := t.pc.toNat = (s.pc.toNat + d) % 65536

/-- The instruction raised a Fatal condition: the status and the event, and nothing else
(60_exceptions.md R232). -/
def HaltsOn (cause : FatalCause) (word : Word) (s t : State) : Prop :=
  t.status = .halted cause ∧ t.events = .fatal cause s.pc (some word) :: s.events ∧
    UnchangedBut [.status, .events] s t

/-- The result `r` in `V[x]` and the flag `f` in VF, and for x = 0xF the one of the two that
FLAG_ORDER writes last (42_register_alu.md R153). -/
def ResultAndFlag (x : Nibble) (r f : Nat) (s t : State) : Prop :=
  if x = 0xF then
    (t.getV 0xF).toNat = if s.cfg.flagOrder = .flagLast then f else r
  else (t.getV x).toNat = r ∧ (t.getV 0xF).toNat = f

/-- The sprite of `n` bytes at `I`, drawn from column `V[x]` and row `V[y]`, has a set bit that
lands on the grid pixel (px, py) (44_display.md R191 to R193). -/
def SpriteHits (x y n : Nibble) (s : State) (px py : Nat) : Prop :=
  px < 64 ∧ py < 32 ∧ (s.getV x).toNat ≤ px ∧ px < (s.getV x).toNat + 8 ∧
    (s.getV y).toNat ≤ py ∧ py < (s.getV y).toNat + n.toNat ∧
    (s.byteAt (s.i.toNat + (py - (s.getV y).toNat))).getLsbD (7 - (px - (s.getV x).toNat)) = true

/-- The registers that an instruction names as written, by the tables of 10_state.md R23 and
R40. -/
def WritesReg : Instr → Nibble → Prop
  | .ldImm x _, k   => k = x
  | .addImm x _, k  => k = x
  | .ldReg x _, k   => k = x
  | .orReg x _, k   => k = x
  | .andReg x _, k  => k = x
  | .xorReg x _, k  => k = x
  | .addReg x _, k  => k = x ∨ k = 0xF
  | .sub x _, k     => k = x ∨ k = 0xF
  | .shr x _, k     => k = x ∨ k = 0xF
  | .subn x _, k    => k = x ∨ k = 0xF
  | .shl x _, k     => k = x ∨ k = 0xF
  | .rnd x _, k     => k = x
  | .drw _ _ _, k   => k = 0xF
  | .ldVxDt x, k    => k = x
  | .ldVxK x, k     => k = x
  | .ldVxMem x, k   => k.toNat ≤ x.toNat
  | .cls _, _       => False
  | .ret _, _       => False
  | .jp _, _        => False
  | .call _, _      => False
  | .seImm _ _, _   => False
  | .sneImm _ _, _  => False
  | .seReg _ _ _, _ => False
  | .sneReg _ _ _, _ => False
  | .ldI _, _       => False
  | .jpV0 _, _      => False
  | .skp _, _       => False
  | .sknp _, _      => False
  | .ldDtVx _, _    => False
  | .ldStVx _, _    => False
  | .addIVx _, _    => False
  | .ldFVx _, _     => False
  | .ldBVx _, _     => False
  | .ldMemVx _, _   => False
  | .sys _, _       => False

end Sys2Proof.Machine
end

