-- ==== Sys2Proof/Certificates/Slice0/Obligations.lean ====
section
/-! DEFINITION. The statements for the provers, from the numbered rules of spec/. -/

open Sys2Proof Sys2Proof.Machine

/-! ## Encoding (30_encoding.md) -/

/-- Decoding the word of a well-formed instruction gives the instruction back, with every operand
at every value and under every setting of the parameters (R75, R76, R80, R81). The opcode values are
the spec's own decision D26 (notes/assumptions/8.md); that the bits which dispatch ignores are an
operand of the instruction is the model's choice (notes/assumptions/12.md). -/
def Obligations.DecodeOfEncode : Prop :=
  ∀ (c : Config) (i : Instr), i.wf c = true → decodeWord c (encode i) = .instr i

/-- The other direction: a word that decodes to an instruction is that instruction's word, and the
instruction is well formed; a word that does not is rejected as itself. The decoder is R76's (R79;
opcode values: D26, notes/assumptions/8.md). That the word comes back whole, its ignored bits
included, is not: R76 decodes 0x03E0 and 0x00E0 both to plain CLS, and the words differ here only
because the model keeps those bits in the instruction (DESIGN CHOICE, notes/assumptions/12.md). -/
def Obligations.EncodeOfDecode : Prop :=
  ∀ (c : Config) (w : Word),
    (∃ i, decodeWord c w = .instr i ∧ encode i = w ∧ i.wf c = true) ∨
    (decodeWord c w = .unknown w ∧ ∀ i : Instr, i.wf c = true → encode i ≠ w)

/-- The unknown-opcode space under STRICT_DISPATCH = false and SYS_POLICY = unknown, class by class
(the table of R79, without its counts; the spec marks it as derived from R76, and the opcode values
are its decision D26, notes/assumptions/8.md). -/
def Obligations.UnknownOpcodeSpace : Prop :=
  ∀ (c : Config) (w : Word), c.strictDispatch = false → c.sysPolicy = .unknown →
    (decodeWord c w = .unknown w ↔
      (w.toNat / 4096 = 0x0 ∧ w.toNat % 256 ∉ [0xE0, 0xEE]) ∨
      (w.toNat / 4096 = 0x8 ∧ w.toNat % 16 ∈ [0x8, 0x9, 0xA, 0xB, 0xC, 0xD, 0xF]) ∨
      (w.toNat / 4096 = 0xE ∧ w.toNat % 256 ∉ [0x9E, 0xA1]) ∨
      (w.toNat / 4096 = 0xF ∧
        w.toNat % 256 ∉ [0x07, 0x0A, 0x15, 0x18, 0x1E, 0x29, 0x33, 0x55, 0x65]))

/-- The ignored bits (R80): the masks of CLS, RET, SE_REG and SNE_REG under both settings of
STRICT_DISPATCH, and what a word with a non-zero ignored field is under the strict one. The masks of
the other setting and the matches are columns of R75, and the opcode values in them are the spec's
own decision D26, from general knowledge (notes/assumptions/8.md); that the ignored bits are an
operand of the instruction is the model's choice (notes/assumptions/12.md). -/
def Obligations.StrictDispatchMasks : Prop :=
  ∀ (c : Config) (w : Word),
    ((∃ u, decodeWord c w = .instr (.cls u)) ↔
      w &&& (if c.strictDispatch then 0xFFFF else 0xF0FF) = 0x00E0) ∧
    ((∃ u, decodeWord c w = .instr (.ret u)) ↔
      w &&& (if c.strictDispatch then 0xFFFF else 0xF0FF) = 0x00EE) ∧
    ((∃ x y u, decodeWord c w = .instr (.seReg x y u)) ↔
      w &&& (if c.strictDispatch then 0xF00F else 0xF000) = 0x5000) ∧
    ((∃ x y u, decodeWord c w = .instr (.sneReg x y u)) ↔
      w &&& (if c.strictDispatch then 0xF00F else 0xF000) = 0x9000) ∧
    (c.strictDispatch = true →
      (w &&& 0xF0FF = 0x00E0 ∨ w &&& 0xF0FF = 0x00EE) → w &&& 0x0F00 ≠ 0 →
      decodeWord c w =
        if c.sysPolicy = .nop then .instr (.sys (BitVec.ofNat 12 w.toNat)) else .unknown w) ∧
    (c.strictDispatch = true →
      (w &&& 0xF000 = 0x5000 ∨ w &&& 0xF000 = 0x9000) → w &&& 0x000F ≠ 0 →
      decodeWord c w = .unknown w)

/-- SYS (R81): a class-0 word that is neither CLS nor RET is Unknown under SYS_POLICY = unknown;
under nop it decodes as SYS(nnn), which completes, changes nothing but PC and reports nothing. -/
def Obligations.SysOnlyAdvances : Prop :=
  ∀ (c : Config) (w : Word), w.toNat / 4096 = 0 →
    (∀ u, decodeWord c w ≠ .instr (.cls u)) → (∀ u, decodeWord c w ≠ .instr (.ret u)) →
    (c.sysPolicy = .unknown → decodeWord c w = .unknown w) ∧
    (c.sysPolicy = .nop →
      decodeWord c w = .instr (.sys (BitVec.ofNat 12 w.toNat)) ∧
      ∀ s : State, ∃ t, exec (.sys (BitVec.ofNat 12 w.toNat)) s = .next t ∧
        PcMoves 2 s t ∧ UnchangedBut [.pc] s t)

/-- Words written out from the patterns of R75 decode to the instructions they stand for, one of
each family, under the default parameters. A sanity check (opcode values: D26,
notes/assumptions/8.md). -/
def Obligations.SampleWordsDecode : Prop :=
  decodeWord defaultConfig 0x600A = .instr (.ldImm 0x0 0x0A) ∧
  decodeWord defaultConfig 0x2210 = .instr (.call 0x210) ∧
  decodeWord defaultConfig 0x854E = .instr (.shl 0x5 0x4) ∧
  decodeWord defaultConfig 0xF265 = .instr (.ldVxMem 0x2) ∧
  decodeWord defaultConfig 0xD125 = .instr (.drw 0x1 0x2 0x5) ∧
  decodeWord defaultConfig 0xE1A1 = .instr (.sknp 0x1)

/-! ## The Cycle (40_execution_cycle.md) -/

/-- A step whose next transaction is a Cycle runs the decoded instruction (R101): step is exec of
the instruction at the state with the transaction taken off the pending list, the redraw flag
cleared and the random byte at hand; after a Fatal condition the state before the Cycle comes back
with the new status and event history (R107; that a fatal condition rolls back and halts is the
spec's decision D6, notes/assumptions/9.md). That the next transaction stands in a pending list is
the model's choice (notes/assumptions/5.md). -/
def Obligations.StepRunsDecodedInstruction : Prop :=
  ∀ (s t : State) (r : Option Byte) (i : Instr), s.AboutToRun r i →
    exec i { s with pending := s.pending.tail, redraw := false, randIn := r,
                    randCount := s.randCount + 1 } = .next t →
    (t.Running → step s = .next t) ∧
    (∀ c, t.status = .halted c → step s =
      .next { s with pending := s.pending.tail, status := t.status, events := t.events })

/-- The fetch faults when PC ≥ 0x0FFF (R102): the block halts, the event has no word, and nothing
else changes, not even the redraw flag. That such a fetch is fatal is the spec's decision D7
(notes/assumptions/9.md). -/
def Obligations.FetchFaultHalts : Prop :=
  ∀ (s : State) (r : Option Byte), s.Running → s.NextCycle r → 0x0FFF ≤ s.pc.toNat →
    ∃ t, step s = .next t ∧ t.status = .halted .addressOutOfRange ∧
      t.events = .fatal .addressOutOfRange s.pc none :: s.events ∧
      t.pending = s.pending.tail ∧ UnchangedBut [.status, .events, .pending] s t

/-- An unknown word (R105, R231): the event is recorded with the PC and the word, the redraw flag
is cleared, PC moves by UNKNOWN_PC_STEP, and the block goes on running with everything else as it
was. The parameter is the spec's decision D4 (notes/assumptions/2.md). -/
def Obligations.UnknownOpcodeReported : Prop :=
  ∀ (s : State) (r : Option Byte), s.Running → s.NextCycle r → s.pc.toNat + 1 ≤ 0xFFF →
    decodeWord s.cfg s.WordAtPc = .unknown s.WordAtPc →
    ∃ t, step s = .next t ∧ t.events = .unknownOpcode s.pc s.WordAtPc :: s.events ∧
      t.redraw = false ∧ t.Running ∧
      PcMoves (match s.cfg.unknownPcStep with | .zero => 0 | .two => 2) s t ∧
      UnchangedBut [.pc, .redraw, .events, .random, .pending] s t

/-- A Cycle of a block that is not Running does nothing: it changes no state and emits no event
(R100). -/
def Obligations.CycleOfStoppedBlock : Prop :=
  ∀ (s : State) (r : Option Byte), s.NextCycle r → ¬ s.Running →
    ∃ t, step s = .next t ∧ t.pending = s.pending.tail ∧ UnchangedBut [.pending] s t

/-- Every Fatal condition is precise (60_exceptions.md R237, R107, R232): the state after it is the
state before the Cycle plus the status, and the event carries the PC of the fetch and the fetched
word, or none when the fetch itself faulted. That the conditions are fatal is the spec's decisions
D6 to D9 (notes/assumptions/9.md). -/
def Obligations.FatalIsPrecise : Prop :=
  ∀ (s t : State) (r : Option Byte) (c : FatalCause), s.Running → s.NextCycle r →
    step s = .next t → t.status = .halted c →
    t.events = .fatal c s.pc (if s.pc.toNat + 1 ≤ 0xFFF then some s.WordAtPc else none)
        :: s.events ∧
    t.pending = s.pending.tail ∧ UnchangedBut [.status, .events, .pending] s t

/-- After a Cycle the events it emitted are exactly one of: nothing, one UnknownOpcode, or one
Fatal (R109, which the spec marks as derived from R101, R105 and R107). -/
def Obligations.CycleEmitsAtMostOne : Prop :=
  ∀ (s t : State) (r : Option Byte), s.NextCycle r → step s = .next t →
    t.events = s.events ∨ (∃ pc w, t.events = .unknownOpcode pc w :: s.events) ∨
    (∃ c pc w, t.events = .fatal c pc w :: s.events)

/-- A Cycle never decrements DT or ST: it changes DT only by FX15 and ST only by FX18, to the
register's value (R108). -/
def Obligations.CycleTimersOnlyByTransfer : Prop :=
  ∀ (s t : State) (r : Option Byte), s.NextCycle r → step s = .next t →
    (t.dt = s.dt ∨ ∃ x, s.AboutToRun r (.ldDtVx x) ∧ t.dt = s.getV x) ∧
    (t.st = s.st ∨ ∃ x, s.AboutToRun r (.ldStVx x) ∧ t.st = s.getV x)

/-- Between the end of a Cycle and the start of the next, redraw is 1 exactly when that Cycle
executed a DXYN, or a 00E0 where CLS_SETS_REDRAW is true (10_state.md R36, 44_display.md R190; the
parameter is the spec's decision D19, notes/assumptions/15.md). -/
def Obligations.RedrawAfterCycle : Prop :=
  ∀ (s t : State) (r : Option Byte), s.Running → s.NextCycle r → step s = .next t → t.Running →
    (t.redraw = true ↔
      (∃ x y n, s.AboutToRun r (.drw x y n)) ∨
      (∃ u, s.AboutToRun r (.cls u) ∧ s.cfg.clsSetsRedraw = true))

/-! ## Who writes what (10_state.md) -/

/-- A Cycle changes a byte of memory only by FX33 at I, I+1, I+2 or FX55 at I .. I+x
(20_memory.md R58), and a byte of the font only under FONT_WRITE_POLICY = write (R54; the parameter
is the spec's decision D9, and that no address of 0x1000 or above is written its decision D7, both
in notes/assumptions/9.md). -/
def Obligations.MemoryWriters : Prop :=
  ∀ (s t : State) (r : Option Byte) (a : Nat), s.MemOk → s.NextCycle r → step s = .next t →
    t.byteAt a ≠ s.byteAt a →
    ((∃ x, s.AboutToRun r (.ldBVx x) ∧ s.i.toNat ≤ a ∧ a ≤ s.i.toNat + 2) ∨
      (∃ x : Nibble, s.AboutToRun r (.ldMemVx x) ∧ s.i.toNat ≤ a ∧ a ≤ s.i.toNat + x.toNat)) ∧
    a < 0x1000 ∧ (a < 0x050 → s.cfg.fontWrite = .write)

/-- A Cycle changes a pixel only by DXYN or 00E0 (R34). -/
def Obligations.FramebufferWriters : Prop :=
  ∀ (s t : State) (r : Option Byte) (px py : Nat), s.NextCycle r → step s = .next t →
    t.pixel px py ≠ s.pixel px py →
    (∃ x y n, s.AboutToRun r (.drw x y n)) ∨ (∃ u, s.AboutToRun r (.cls u))

/-- A Cycle changes I only by ANNN, FX1E or FX29 (R26; that FX33, FX55 and FX65 leave it is the spec's
decision D13, notes/assumptions/15.md). -/
def Obligations.IndexWriters : Prop :=
  ∀ (s t : State) (r : Option Byte), s.NextCycle r → step s = .next t → t.i ≠ s.i →
    (∃ nnn, s.AboutToRun r (.ldI nnn)) ∨ (∃ x, s.AboutToRun r (.addIVx x)) ∨
      (∃ x, s.AboutToRun r (.ldFVx x))

/-- Only CALL pushes and only RET pops (R28): a Cycle that changes the depth or an entry is a CALL
that adds one entry at the old depth, or a RET that only lowers the depth by one. SP as a depth is
the spec's decision D3 (notes/assumptions/9.md, 17.md). -/
def Obligations.CallStackUsers : Prop :=
  ∀ (s t : State) (r : Option Byte), s.NextCycle r → step s = .next t →
    (t.sp = s.sp ∧ t.stack = s.stack) ∨
    (∃ nnn, s.AboutToRun r (.call nnn) ∧ t.sp.val = s.sp.val + 1 ∧
      ∀ k : Fin 16, t.stack[k] = if k.val = s.sp.val then s.pc else s.stack[k]) ∨
    (∃ u, s.AboutToRun r (.ret u) ∧ t.sp.val + 1 = s.sp.val ∧ t.stack = s.stack)

/-- A Cycle never sets a key latch, and it clears one only by EX9E, EXA1 or FX0A (R32,
70_reset_and_hazards.md R278). -/
def Obligations.KeyLatchesOnlyCleared : Prop :=
  ∀ (s t : State) (r : Option Byte) (k : Fin 16), s.NextCycle r → step s = .next t →
    t.getKey k ≠ s.getKey k →
    s.getKey k = true ∧ t.getKey k = false ∧
    ((∃ x, s.AboutToRun r (.skp x) ∧ (s.getV x).toNat = k.val) ∨
      (∃ x, s.AboutToRun r (.sknp x) ∧ (s.getV x).toNat = k.val) ∨
      (∃ x, s.AboutToRun r (.ldVxK x) ∧ t.getV x = BitVec.ofNat 8 k.val))

/-- A Cycle changes a register only by an instruction that the tables of R23 and R40 list as its
writer; in particular no other instruction writes VF as a side effect (R24). -/
def Obligations.RegisterWriters : Prop :=
  ∀ (s t : State) (r : Option Byte) (k : Nibble), s.NextCycle r → step s = .next t →
    t.getV k ≠ s.getV k → ∃ i, s.AboutToRun r i ∧ WritesReg i k

/-! ## Invariants and whole-machine rules -/

/-- Every step keeps memory in its canonical form: strictly rising addresses below 0x1000 and no
entry that equals what its address reads as unlisted (the form is the model's,
notes/assumptions/10.md; the 4096 addresses are 20_memory.md R50's). -/
def Obligations.StepKeepsMemoryCanonical : Prop :=
  ∀ s t : State, s.MemOk → step s = .next t → t.MemOk

/-- Every step keeps every live return address at most 0x0FFE (41_control_flow.md R120). It
rests on the fetch fault of R102, the spec's decision D7 (notes/assumptions/9.md). -/
def Obligations.StepKeepsReturnAddresses : Prop :=
  ∀ s t : State, s.StackOk → step s = .next t → t.StackOk

/-- Both invariants hold right after reset. -/
def Obligations.ResetMeetsInvariants : Prop := State.reset.MemOk ∧ State.reset.StackOk

/-- Nothing the machine does ends it outside its own rules: every step answers a next state
(60_exceptions.md R230: there is no trap mechanism). That a Fatal condition is a next state is the
model's reading (notes/assumptions/16.md). -/
def Obligations.StepAlwaysAnswers : Prop := ∀ s : State, ∃ t, step s = .next t

/-- The parameters are not state: no step changes them (10_state.md R39; that the model carries
them in its state is its own choice, notes/assumptions/2.md). -/
def Obligations.StepKeepsParameters : Prop :=
  ∀ s t : State, step s = .next t → t.cfg = s.cfg

/-- No event is ever removed from the history (60_exceptions.md R231): a step adds at most one
event in front. The list in the state is the model's choice (notes/assumptions/6.md). -/
def Obligations.EventHistoryOnlyGrows : Prop :=
  ∀ s t : State, step s = .next t → t.events = s.events ∨ ∃ e, t.events = e :: s.events

/-- Only Start and Stop leave Halted (10_state.md R37, 60_exceptions.md R232): any other
transaction of a Halted block leaves it Halted with the same cause, and changes nothing but the
key latch that a KeyWrite names. The status is the spec's own state, decisions D6 and D24
(notes/assumptions/9.md, 15.md). -/
def Obligations.HaltedIsAbsorbing : Prop :=
  ∀ (s t : State) (c : FatalCause), s.status = .halted c → step s = .next t →
    (∀ rom, ¬ s.NextIs (.start rom)) → ¬ s.NextIs .stop →
    t.status = .halted c ∧
    UnchangedOutside (fun p => p = .pending ∨ ∃ k b, s.NextIs (.keyWrite k b) ∧ p = .key k) s t

/-! ## The host's transactions (60_exceptions.md, 70_reset_and_hazards.md) -/

/-- A Tick of a running block (R244): each timer goes down by one, never below zero; one Beep is
emitted exactly if ST was 1; nothing else changes. A Tick of a block that is not running does
nothing and emits nothing (R246). -/
def Obligations.TickCountsDown : Prop :=
  ∀ s : State, s.NextIs .tick → ∃ t, step s = .next t ∧ t.pending = s.pending.tail ∧
    (s.Running →
      t.dt.toNat = s.dt.toNat - 1 ∧ t.st.toNat = s.st.toNat - 1 ∧
      t.events = (if s.st.toNat = 1 then .beep :: s.events else s.events) ∧
      UnchangedBut [.dt, .st, .events, .pending] s t) ∧
    (¬ s.Running → UnchangedBut [.pending] s t)

/-- Beeps (R245): a Tick of a running block that finds ST = 1 emits exactly one Beep and leaves
ST = 0; no other step of any kind emits one. That only a Tick beeps is the spec's decision D20
(notes/assumptions/15.md). -/
def Obligations.BeepOnlyAtTick : Prop :=
  ∀ s t : State, step s = .next t →
    (s.Running ∧ s.NextIs .tick ∧ s.st.toNat = 1 →
      t.events = .beep :: s.events ∧ t.st.toNat = 0) ∧
    (¬ (s.Running ∧ s.NextIs .tick ∧ s.st.toNat = 1) →
      t.events.count .beep = s.events.count .beep)

/-- KeyWrite(k, b) sets key[k] to b and changes nothing else, in every status (R250). -/
def Obligations.KeyWriteSetsLatch : Prop :=
  ∀ (s : State) (k : Fin 16) (b : Bool), s.NextIs (.keyWrite k b) →
    ∃ t, step s = .next t ∧ t.getKey k = b ∧ t.pending = s.pending.tail ∧
      UnchangedBut [.key k, .pending] s t

/-- Start of a readable image of at most 3583 bytes (70_reset_and_hazards.md R270): every field has
its value in the table of 10_state.md R41, whatever the status was, and no event is emitted. -/
def Obligations.StartLoadsImage : Prop :=
  ∀ (s : State) (rom : List Byte), s.NextIs (.start (.bytes rom)) → rom.length ≤ 3583 →
    ∃ t, step s = .next t ∧
      (∀ a : Fin 80, t.byteAt a.val = s.cfg.font[a]) ∧
      (∀ a, 0x050 ≤ a → a ≤ 0x1FF → t.byteAt a = 0) ∧
      (∀ k : Fin rom.length, t.byteAt (0x200 + k.val) = rom[k]) ∧
      (∀ a, 0x200 + rom.length ≤ a → a ≤ 0xFFF → t.byteAt a = 0) ∧
      (∀ x, t.getV x = 0) ∧ t.i = 0 ∧ t.pc.toNat = 0x200 ∧
      (∀ k : Fin 16, t.stack[k] = 0) ∧ t.sp.val = 0 ∧ t.dt = 0 ∧ t.st = 0 ∧
      (∀ k, t.getKey k = false) ∧ (∀ k, t.fbBit k = false) ∧ t.redraw = false ∧ t.Running ∧
      t.events = s.events ∧ t.pending = s.pending.tail ∧ t.cfg = s.cfg

/-- Start of an image that is unreadable or longer than 3583 bytes fails (R271, R270): the status
is Idle and LoadError is emitted. That the other fields stay as they were is the model's choice
(notes/assumptions/7.md) and is not stated. -/
def Obligations.StartRejectsBadImage : Prop :=
  ∀ s : State,
    (∀ rom : List Byte, s.NextIs (.start (.bytes rom)) → 3584 ≤ rom.length →
      ∃ t, step s = .next t ∧ t.status = .idle ∧
        t.events = .loadError rom.length :: s.events) ∧
    (∀ len, s.NextIs (.start (.unreadable len)) →
      ∃ t, step s = .next t ∧ t.status = .idle ∧ t.events = .loadError len :: s.events)

/-- Stop ends the session (R274): the status is Idle, and no event is emitted. The Renderer's read
has no effect on the block; in particular it does not clear redraw (60_exceptions.md R249). -/
def Obligations.StopAndDisplayRead : Prop :=
  ∀ s : State,
    (s.NextIs .stop → ∃ t, step s = .next t ∧ t.status = .idle ∧ t.events = s.events) ∧
    (s.NextIs .readDisplay →
      ∃ t, step s = .next t ∧ t.pending = s.pending.tail ∧ UnchangedBut [.pending] s t)

/-- The state after reset is the one that a Start of an image of length 0 gives from power-on
(70_reset_and_hazards.md R270, R272; that reset means this is the model's reading,
notes/assumptions/1.md). -/
def Obligations.ResetIsEmptyStart : Prop :=
  start (.bytes []) powerOn = State.reset ∧ powerOn.status = .idle

/-! ## Control flow (41_control_flow.md) -/

/-- RET (R120): with a live entry it goes to the top entry plus 2 and lowers the depth by one, and
the entry stays in the array; with none it raises STACK_UNDERFLOW and changes nothing else. SP as a
depth is the spec's decision D3 (notes/assumptions/9.md). -/
def Obligations.ReturnPops : Prop :=
  ∀ (s : State) (u : Nibble), s.cfg.strictDispatch = false ∨ u = 0 →
    decodeWord s.cfg (0x0#4 ++ u ++ 0xEE#8) = .instr (.ret u) ∧
    (∀ h : 0 < s.sp.val, ∃ t, exec (.ret u) s = .next t ∧
      t.pc.toNat = ((s.stack[s.sp.val - 1]'(by omega)).toNat + 2) % 65536 ∧
      t.sp.val = s.sp.val - 1 ∧ UnchangedBut [.pc, .sp] s t) ∧
    (s.sp.val = 0 → ∃ t, exec (.ret u) s = .next t ∧
      HaltsOn .stackUnderflow (0x0#4 ++ u ++ 0xEE#8) s t)

/-- JP (R121): PC becomes nnn, and nothing else changes. -/
def Obligations.JumpSetsPc : Prop :=
  ∀ (s : State) (nnn : Addr),
    decodeWord s.cfg (0x1#4 ++ nnn) = .instr (.jp nnn) ∧
    ∃ t, exec (.jp nnn) s = .next t ∧ t.pc.toNat = nnn.toNat ∧ UnchangedBut [.pc] s t

/-- CALL (R122): below 16 live entries it pushes its own address and goes to nnn; with 16 it raises
STACK_OVERFLOW and changes nothing else. SP as a depth is the spec's decision D3
(notes/assumptions/9.md). -/
def Obligations.CallPushes : Prop :=
  ∀ (s : State) (nnn : Addr),
    decodeWord s.cfg (0x2#4 ++ nnn) = .instr (.call nnn) ∧
    (∀ h : s.sp.val < 16, ∃ t, exec (.call nnn) s = .next t ∧
      t.stack[s.sp.val]'h = s.pc ∧ t.sp.val = s.sp.val + 1 ∧ t.pc.toNat = nnn.toNat ∧
      UnchangedBut [.pc, .sp, .stackEntry ⟨s.sp.val, h⟩] s t) ∧
    (s.sp.val = 16 → ∃ t, exec (.call nnn) s = .next t ∧
      HaltsOn .stackOverflow (0x2#4 ++ nnn) s t)

/-- A CALL and then a RET resume after the CALL, at the depth before it (R120, R122), whatever
ran between them that left the depth and the entry alone. SP as a depth is the spec's decision D3
(notes/assumptions/9.md). -/
def Obligations.ReturnResumesAfterCall : Prop :=
  ∀ (s t u : State) (nnn : Addr) (v : Nibble) (h : s.sp.val < 16),
    exec (.call nnn) s = .next t → u.sp = t.sp → u.stack[s.sp.val]'h = t.stack[s.sp.val]'h →
    ∃ w, exec (.ret v) u = .next w ∧ PcMoves 2 s w ∧ w.sp = s.sp

/-- SE Vx, nn and SNE Vx, nn (R123, R124): PC + 4 if the condition holds, else PC + 2; nothing else
changes. -/
def Obligations.SkipsOnImmediate : Prop :=
  ∀ (s : State) (x : Nibble) (nn : Byte),
    decodeWord s.cfg (0x3#4 ++ x ++ nn) = .instr (.seImm x nn) ∧
    decodeWord s.cfg (0x4#4 ++ x ++ nn) = .instr (.sneImm x nn) ∧
    (∃ t, exec (.seImm x nn) s = .next t ∧
      PcMoves (if s.getV x = nn then 4 else 2) s t ∧ UnchangedBut [.pc] s t) ∧
    (∃ t, exec (.sneImm x nn) s = .next t ∧
      PcMoves (if s.getV x = nn then 2 else 4) s t ∧ UnchangedBut [.pc] s t)

/-- SE Vx, Vy and SNE Vx, Vy (R125, R126). -/
def Obligations.SkipsOnRegister : Prop :=
  ∀ (s : State) (x y u : Nibble), s.cfg.strictDispatch = false ∨ u = 0 →
    decodeWord s.cfg (0x5#4 ++ x ++ y ++ u) = .instr (.seReg x y u) ∧
    decodeWord s.cfg (0x9#4 ++ x ++ y ++ u) = .instr (.sneReg x y u) ∧
    (∃ t, exec (.seReg x y u) s = .next t ∧
      PcMoves (if s.getV x = s.getV y then 4 else 2) s t ∧ UnchangedBut [.pc] s t) ∧
    (∃ t, exec (.sneReg x y u) s = .next t ∧
      PcMoves (if s.getV x = s.getV y then 2 else 4) s t ∧ UnchangedBut [.pc] s t)

/-- JP V0, nnn (R127): PC becomes nnn + V0 + 2; nothing else changes. -/
def Obligations.JumpOffsetAddsTwo : Prop :=
  ∀ (s : State) (nnn : Addr),
    decodeWord s.cfg (0xB#4 ++ nnn) = .instr (.jpV0 nnn) ∧
    ∃ t, exec (.jpV0 nnn) s = .next t ∧
      t.pc.toNat = (nnn.toNat + (s.getV 0).toNat + 2) % 65536 ∧ UnchangedBut [.pc] s t

/-! ## Register loads and the ALU (42_register_alu.md) -/

/-- LD Vx, nn and LD Vx, Vy (R140, R142): plain writes, VF being a register like any other. -/
def Obligations.LoadsIntoRegister : Prop :=
  ∀ (s : State) (x y : Nibble) (nn : Byte),
    decodeWord s.cfg (0x6#4 ++ x ++ nn) = .instr (.ldImm x nn) ∧
    decodeWord s.cfg (0x8#4 ++ x ++ y ++ 0x0#4) = .instr (.ldReg x y) ∧
    (∃ t, exec (.ldImm x nn) s = .next t ∧ t.getV x = nn ∧ PcMoves 2 s t ∧
      UnchangedBut [.reg x, .pc] s t) ∧
    (∃ t, exec (.ldReg x y) s = .next t ∧ t.getV x = s.getV y ∧ PcMoves 2 s t ∧
      UnchangedBut [.reg x, .pc] s t)

/-- ADD Vx, nn (R141): the sum modulo 256; VF is unchanged even when the sum exceeds 255, unless it
is the destination, which receives the sum. -/
def Obligations.AddImmediateNoFlag : Prop :=
  ∀ (s : State) (x : Nibble) (nn : Byte),
    decodeWord s.cfg (0x7#4 ++ x ++ nn) = .instr (.addImm x nn) ∧
    ∃ t, exec (.addImm x nn) s = .next t ∧
      (t.getV x).toNat = ((s.getV x).toNat + nn.toNat) % 256 ∧ PcMoves 2 s t ∧
      UnchangedBut [.reg x, .pc] s t

/-- OR, AND and XOR (R143, R144, R145), bit by bit; VF is not reset. -/
def Obligations.BitwiseNoFlag : Prop :=
  ∀ (s : State) (x y : Nibble),
    decodeWord s.cfg (0x8#4 ++ x ++ y ++ 0x1#4) = .instr (.orReg x y) ∧
    decodeWord s.cfg (0x8#4 ++ x ++ y ++ 0x2#4) = .instr (.andReg x y) ∧
    decodeWord s.cfg (0x8#4 ++ x ++ y ++ 0x3#4) = .instr (.xorReg x y) ∧
    (∃ t, exec (.orReg x y) s = .next t ∧ PcMoves 2 s t ∧ UnchangedBut [.reg x, .pc] s t ∧
      ∀ k, (t.getV x).getLsbD k = ((s.getV x).getLsbD k || (s.getV y).getLsbD k)) ∧
    (∃ t, exec (.andReg x y) s = .next t ∧ PcMoves 2 s t ∧ UnchangedBut [.reg x, .pc] s t ∧
      ∀ k, (t.getV x).getLsbD k = ((s.getV x).getLsbD k && (s.getV y).getLsbD k)) ∧
    (∃ t, exec (.xorReg x y) s = .next t ∧ PcMoves 2 s t ∧ UnchangedBut [.reg x, .pc] s t ∧
      ∀ k, (t.getV x).getLsbD k = ((s.getV x).getLsbD k ^^ (s.getV y).getLsbD k))

/-- ADD Vx, Vy (R146, R153): the sum modulo 256 and the carry, with either FLAG_ORDER. -/
def Obligations.AddSetsCarry : Prop :=
  ∀ (s : State) (x y : Nibble),
    decodeWord s.cfg (0x8#4 ++ x ++ y ++ 0x4#4) = .instr (.addReg x y) ∧
    ∃ t, exec (.addReg x y) s = .next t ∧
      ResultAndFlag x (((s.getV x).toNat + (s.getV y).toNat) % 256)
        (if (s.getV x).toNat + (s.getV y).toNat > 255 then 1 else 0) s t ∧
      PcMoves 2 s t ∧ UnchangedBut [.reg x, .reg 0xF, .pc] s t

/-- SUB and SUBN (R147, R149, R153): the difference modulo 256 and VF = 0 exactly when a borrow is
taken, with either FLAG_ORDER. -/
def Obligations.SubtractSetsNotBorrow : Prop :=
  ∀ (s : State) (x y : Nibble),
    decodeWord s.cfg (0x8#4 ++ x ++ y ++ 0x5#4) = .instr (.sub x y) ∧
    decodeWord s.cfg (0x8#4 ++ x ++ y ++ 0x7#4) = .instr (.subn x y) ∧
    (∃ t, exec (.sub x y) s = .next t ∧
      ResultAndFlag x ((((s.getV x).toNat : Int) - (s.getV y).toNat) % 256).toNat
        (if (s.getV y).toNat > (s.getV x).toNat then 0 else 1) s t ∧
      PcMoves 2 s t ∧ UnchangedBut [.reg x, .reg 0xF, .pc] s t) ∧
    (∃ t, exec (.subn x y) s = .next t ∧
      ResultAndFlag x ((((s.getV y).toNat : Int) - (s.getV x).toNat) % 256).toNat
        (if (s.getV x).toNat > (s.getV y).toNat then 0 else 1) s t ∧
      PcMoves 2 s t ∧ UnchangedBut [.reg x, .reg 0xF, .pc] s t)

/-- SHR and SHL (R148, R150, R153): they shift Vy by one; SHR's flag is the bit shifted out, SHL's
is Vy & 0x80, that is 0x00 or 0x80, with either FLAG_ORDER. -/
def Obligations.ShiftsTakeVy : Prop :=
  ∀ (s : State) (x y : Nibble),
    decodeWord s.cfg (0x8#4 ++ x ++ y ++ 0x6#4) = .instr (.shr x y) ∧
    decodeWord s.cfg (0x8#4 ++ x ++ y ++ 0xE#4) = .instr (.shl x y) ∧
    (∃ t, exec (.shr x y) s = .next t ∧
      ResultAndFlag x ((s.getV y).toNat / 2) ((s.getV y).toNat % 2) s t ∧
      PcMoves 2 s t ∧ UnchangedBut [.reg x, .reg 0xF, .pc] s t) ∧
    (∃ t, exec (.shl x y) s = .next t ∧
      ResultAndFlag x ((s.getV y).toNat * 2 % 256)
        (if (s.getV y).toNat ≥ 128 then 0x80 else 0) s t ∧
      PcMoves 2 s t ∧ UnchangedBut [.reg x, .reg 0xF, .pc] s t)

/-- RND (R151): the Cycle's random byte masked with nn. Where the host's transaction states the byte
it is that one; where none does, the statement says no more of it than that there is one. -/
def Obligations.RandomIsMasked : Prop :=
  ∀ (s : State) (x : Nibble) (nn : Byte),
    decodeWord s.cfg (0xC#4 ++ x ++ nn) = .instr (.rnd x nn) ∧
    ∃ t r, exec (.rnd x nn) s = .next t ∧ (s.randIn = none ∨ s.randIn = some r) ∧
      (∀ k, (t.getV x).getLsbD k = (r.getLsbD k && nn.getLsbD k)) ∧
      PcMoves 2 s t ∧ UnchangedBut [.reg x, .pc] s t

/-! ## Index and memory (43_index_memory.md, 20_memory.md) -/

/-- LD I, nnn; ADD I, Vx; LD F, Vx (R170, R171, R172): the new index, no flag, no mask of Vx. -/
def Obligations.IndexLoads : Prop :=
  ∀ (s : State) (x : Nibble) (nnn : Addr),
    decodeWord s.cfg (0xA#4 ++ nnn) = .instr (.ldI nnn) ∧
    decodeWord s.cfg (0xF#4 ++ x ++ 0x1E#8) = .instr (.addIVx x) ∧
    decodeWord s.cfg (0xF#4 ++ x ++ 0x29#8) = .instr (.ldFVx x) ∧
    (∃ t, exec (.ldI nnn) s = .next t ∧ t.i.toNat = nnn.toNat ∧ PcMoves 2 s t ∧
      UnchangedBut [.index, .pc] s t) ∧
    (∃ t, exec (.addIVx x) s = .next t ∧
      t.i.toNat = (s.i.toNat + (s.getV x).toNat) % 65536 ∧ PcMoves 2 s t ∧
      UnchangedBut [.index, .pc] s t) ∧
    (∃ t, exec (.ldFVx x) s = .next t ∧ t.i.toNat = (s.getV x).toNat * 5 ∧ PcMoves 2 s t ∧
      UnchangedBut [.index, .pc] s t)

/-- LD B, Vx (R173, R54). Where its addresses pass their checks: the three digits at I, I+1, I+2
(but for the font, which FONT_WRITE_POLICY = ignore leaves as it is); I, every other byte and
everything else are unchanged. With I in a protected font it raises FONT_WRITE, with I + 2 at
0x1000 or above ADDRESS_OUT_OF_RANGE, and nothing is written. That I stays is the spec's decision D13
(notes/assumptions/15.md); what a store to the font does and that an address of 0x1000 or above is
fatal are its decisions D9 and D7 (notes/assumptions/9.md). -/
def Obligations.BcdStoresDigits : Prop :=
  ∀ (s : State) (x : Nibble),
    decodeWord s.cfg (0xF#4 ++ x ++ 0x33#8) = .instr (.ldBVx x) ∧
    (s.MemOk → indexAddr s + 2 < 0x1000 → (indexAddr s < 0x050 → s.cfg.fontWrite ≠ .fault) →
      ∃ t, exec (.ldBVx x) s = .next t ∧ PcMoves 2 s t ∧
        (∀ k, k < 3 → (t.byteAt (indexAddr s + k)).toNat =
          if indexAddr s + k < 0x050 ∧ s.cfg.fontWrite = .ignore
          then (s.byteAt (indexAddr s + k)).toNat
          else (s.getV x).toNat / 10 ^ (2 - k) % 10) ∧
        UnchangedOutside (fun p => p = .pc ∨
          ∃ a, indexAddr s ≤ a ∧ a < indexAddr s + 3 ∧ p = .byte a) s t) ∧
    (indexAddr s < 0x050 ∧ s.cfg.fontWrite = .fault →
      ∃ t, exec (.ldBVx x) s = .next t ∧ HaltsOn .fontWrite (0xF#4 ++ x ++ 0x33#8) s t) ∧
    (0x1000 ≤ indexAddr s + 2 → ∃ t, exec (.ldBVx x) s = .next t ∧
      HaltsOn .addressOutOfRange (0xF#4 ++ x ++ 0x33#8) s t)

/-- LD [I], Vx (R174, R54). Where its addresses pass their checks: V[k] at I + k for k in 0..x (but
for the font under ignore); I, every other byte and everything else are unchanged. With I in a
protected font it raises FONT_WRITE, with I + x at 0x1000 or above ADDRESS_OUT_OF_RANGE, and
nothing is written. That I stays is the spec's decision D13 (notes/assumptions/15.md); what a store
to the font does and that an address of 0x1000 or above is fatal are its decisions D9 and D7
(notes/assumptions/9.md). -/
def Obligations.RegistersStored : Prop :=
  ∀ (s : State) (x : Nibble),
    decodeWord s.cfg (0xF#4 ++ x ++ 0x55#8) = .instr (.ldMemVx x) ∧
    (s.MemOk → indexAddr s + x.toNat < 0x1000 →
      (indexAddr s < 0x050 → s.cfg.fontWrite ≠ .fault) →
      ∃ t, exec (.ldMemVx x) s = .next t ∧ PcMoves 2 s t ∧
        (∀ k : Nibble, k.toNat ≤ x.toNat → t.byteAt (indexAddr s + k.toNat) =
          if indexAddr s + k.toNat < 0x050 ∧ s.cfg.fontWrite = .ignore
          then s.byteAt (indexAddr s + k.toNat) else s.getV k) ∧
        UnchangedOutside (fun p => p = .pc ∨
          ∃ a, indexAddr s ≤ a ∧ a < indexAddr s + (x.toNat + 1) ∧ p = .byte a) s t) ∧
    (indexAddr s < 0x050 ∧ s.cfg.fontWrite = .fault →
      ∃ t, exec (.ldMemVx x) s = .next t ∧ HaltsOn .fontWrite (0xF#4 ++ x ++ 0x55#8) s t) ∧
    (0x1000 ≤ indexAddr s + x.toNat → ∃ t, exec (.ldMemVx x) s = .next t ∧
      HaltsOn .addressOutOfRange (0xF#4 ++ x ++ 0x55#8) s t)

/-- LD Vx, [I] (R175): V[k] becomes the byte at I + k for k in 0..x, from any readable address, and
V[x+1] and up, I, memory and everything else are unchanged; with its last address at 0x1000 or
above it raises ADDRESS_OUT_OF_RANGE and writes nothing. That I stays is the spec's decision D13
(notes/assumptions/15.md), and that such an address is fatal its decision D7
(notes/assumptions/9.md). -/
def Obligations.RegistersLoaded : Prop :=
  ∀ (s : State) (x : Nibble),
    decodeWord s.cfg (0xF#4 ++ x ++ 0x65#8) = .instr (.ldVxMem x) ∧
    (indexAddr s + x.toNat < 0x1000 →
      ∃ t, exec (.ldVxMem x) s = .next t ∧ PcMoves 2 s t ∧
        (∀ k : Nibble, k.toNat ≤ x.toNat → t.getV k = s.byteAt (indexAddr s + k.toNat)) ∧
        UnchangedOutside (fun p => p = .pc ∨ ∃ k : Nibble, k.toNat ≤ x.toNat ∧ p = .reg k) s t) ∧
    (0x1000 ≤ indexAddr s + x.toNat → ∃ t, exec (.ldVxMem x) s = .next t ∧
      HaltsOn .addressOutOfRange (0xF#4 ++ x ++ 0x65#8) s t)

/-! ## Display (44_display.md) -/

/-- CLS (R190): every pixel reads 0; redraw becomes 1 only where CLS_SETS_REDRAW is true (the
parameter is the spec's decision D19, notes/assumptions/15.md); VF and everything else are
unchanged. -/
def Obligations.ClearScreen : Prop :=
  ∀ (s : State) (u : Nibble), s.cfg.strictDispatch = false ∨ u = 0 →
    decodeWord s.cfg (0x0#4 ++ u ++ 0xE0#8) = .instr (.cls u) ∧
    ∃ t, exec (.cls u) s = .next t ∧ (∀ k, t.fbBit k = false) ∧
      t.redraw = (if s.cfg.clsSetsRedraw then true else s.redraw) ∧ PcMoves 2 s t ∧
      UnchangedOutside (fun p => p = .pc ∨ p = .redraw ∨
        ∃ px py, px < 64 ∧ py < 32 ∧ p = .pixel px py) s t

/-- DRW (R191 to R195). Where its sprite is readable: exactly the grid pixels that a set bit of the
sprite lands on are inverted, with no wrap; VF is 1 if one of those was lit and else 0; redraw is
1; everything else is unchanged. A sprite that reaches 0x1000 raises ADDRESS_OUT_OF_RANGE, and
nothing is written, not even redraw. Bit 7 being leftmost, the clipping and the collision are the
spec's decisions D21, D11 and D12 (notes/assumptions/15.md), and that an address of 0x1000 or above
is fatal (R53, R55) is its decision D7 (notes/assumptions/9.md). -/
def Obligations.DrawTogglesSprite : Prop :=
  ∀ (s : State) (x y n : Nibble),
    decodeWord s.cfg (0xD#4 ++ x ++ y ++ n) = .instr (.drw x y n) ∧
    (n.toNat = 0 ∨ s.i.toNat + n.toNat - 1 < 0x1000 →
      ∃ t, exec (.drw x y n) s = .next t ∧
        (∀ px py, px < 64 → py < 32 →
          (SpriteHits x y n s px py → t.pixel px py = !s.pixel px py) ∧
          (¬ SpriteHits x y n s px py → t.pixel px py = s.pixel px py)) ∧
        ((∃ px py, SpriteHits x y n s px py ∧ s.pixel px py = true) → t.getV 0xF = 1) ∧
        ((∀ px py, SpriteHits x y n s px py → s.pixel px py = false) → t.getV 0xF = 0) ∧
        t.redraw = true ∧ PcMoves 2 s t ∧
        UnchangedOutside (fun p => p = .pc ∨ p = .redraw ∨ p = .reg 0xF ∨
          ∃ px py, px < 64 ∧ py < 32 ∧ p = .pixel px py) s t) ∧
    (1 ≤ n.toNat → 0x1000 ≤ s.i.toNat + n.toNat - 1 →
      ∃ t, exec (.drw x y n) s = .next t ∧
        HaltsOn .addressOutOfRange (0xD#4 ++ x ++ y ++ n) s t)

/-- Draw is an involution (R196): with x and y other than 0xF, drawing the same sprite twice gives
the framebuffer back, and the second draw sets VF = 1 exactly when some pixel that the first one
toggled was dark before it. The spec marks R196 as derived from R191, R193 and R194. Which pixels a
sprite hits and VF = 0 without a collision are the spec's decisions: bit 7 leftmost (R192, D21, from
general knowledge), the clipping (R193, D11) and the 0 (R194, D12), all in notes/assumptions/15.md;
that a sprite must end below 0x1000 is D7 (notes/assumptions/9.md). -/
def Obligations.DrawTwiceRestores : Prop :=
  ∀ (s t : State) (x y n : Nibble), x ≠ 0xF → y ≠ 0xF →
    n.toNat = 0 ∨ s.i.toNat + n.toNat - 1 < 0x1000 →
    exec (.drw x y n) s = .next t →
    ∃ u, exec (.drw x y n) t = .next u ∧ (∀ px py, u.pixel px py = s.pixel px py) ∧
      (u.getV 0xF = 1 ↔ ∃ px py, SpriteHits x y n s px py ∧ s.pixel px py = false)

/-! ## Keypad and timers (45_keypad_timers.md) -/

/-- SKP and SKNP (R210, R211): with a key index of at most 0x0F each clears the latch it finds set
and leaves a clear latch clear, SKP skips if the latch was set, and SKNP if it was not; with
V[x] > 0x0F they raise KEY_INDEX_OUT_OF_RANGE, the spec's decision D8 (notes/assumptions/9.md). -/
def Obligations.KeySkipsClearLatch : Prop :=
  ∀ (s : State) (x : Nibble),
    decodeWord s.cfg (0xE#4 ++ x ++ 0x9E#8) = .instr (.skp x) ∧
    decodeWord s.cfg (0xE#4 ++ x ++ 0xA1#8) = .instr (.sknp x) ∧
    (∀ k : Fin 16, (s.getV x).toNat = k.val →
      (∃ t, exec (.skp x) s = .next t ∧ t.getKey k = false ∧
        PcMoves (if s.getKey k = true then 4 else 2) s t ∧ UnchangedBut [.key k, .pc] s t) ∧
      (∃ t, exec (.sknp x) s = .next t ∧ t.getKey k = false ∧
        PcMoves (if s.getKey k = true then 2 else 4) s t ∧ UnchangedBut [.key k, .pc] s t)) ∧
    (0x0F < (s.getV x).toNat →
      (∃ t, exec (.skp x) s = .next t ∧
        HaltsOn .keyIndexOutOfRange (0xE#4 ++ x ++ 0x9E#8) s t) ∧
      (∃ t, exec (.sknp x) s = .next t ∧
        HaltsOn .keyIndexOutOfRange (0xE#4 ++ x ++ 0xA1#8) s t))

/-- LD Vx, DT; LD DT, Vx; LD ST, Vx (R212, R214, R215): the transfers, with no event. That FX18 never
emits a Beep, not even when it takes ST from 1 to 0, is the spec's decision D20
(notes/assumptions/15.md). -/
def Obligations.TimerTransfers : Prop :=
  ∀ (s : State) (x : Nibble),
    decodeWord s.cfg (0xF#4 ++ x ++ 0x07#8) = .instr (.ldVxDt x) ∧
    decodeWord s.cfg (0xF#4 ++ x ++ 0x15#8) = .instr (.ldDtVx x) ∧
    decodeWord s.cfg (0xF#4 ++ x ++ 0x18#8) = .instr (.ldStVx x) ∧
    (∃ t, exec (.ldVxDt x) s = .next t ∧ t.getV x = s.dt ∧ PcMoves 2 s t ∧
      UnchangedBut [.reg x, .pc] s t) ∧
    (∃ t, exec (.ldDtVx x) s = .next t ∧ t.dt = s.getV x ∧ PcMoves 2 s t ∧
      UnchangedBut [.dt, .pc] s t) ∧
    (∃ t, exec (.ldStVx x) s = .next t ∧ t.st = s.getV x ∧ PcMoves 2 s t ∧
      UnchangedBut [.st, .pc] s t)

/-- LD Vx, K (R213): the least set key goes to Vx, its latch alone is cleared, and PC advances; with
no key set nothing changes at all, PC included. That the least key wins is the spec's decision D18
(notes/assumptions/15.md). -/
def Obligations.KeyWaitTakesLeast : Prop :=
  ∀ (s : State) (x : Nibble),
    decodeWord s.cfg (0xF#4 ++ x ++ 0x0A#8) = .instr (.ldVxK x) ∧
    (∀ k : Fin 16, s.getKey k = true → (∀ j < k, s.getKey j = false) →
      ∃ t, exec (.ldVxK x) s = .next t ∧ (t.getV x).toNat = k.val ∧ t.getKey k = false ∧
        PcMoves 2 s t ∧ UnchangedBut [.reg x, .key k, .pc] s t) ∧
    ((∀ k, s.getKey k = false) → exec (.ldVxK x) s = .next s)
end

