-- ==== Sys2Proof/Laws/State.lean ====
section
/-! SUPPORT. One lemma for each field (and each accessor) of the state and each update of it, true
by definition, so that no proof unfolds a record update. -/

namespace Sys2Proof.Machine

variable (s : State)

/-! ## pokeByte -/

@[simp] theorem State.pokeByte_mem (a' : Nat) (b : Byte) : (s.pokeByte a' b).mem = Memory.write s.cfg.font s.mem a' b := rfl
@[simp] theorem State.pokeByte_v (a' : Nat) (b : Byte) : (s.pokeByte a' b).v = s.v := rfl
@[simp] theorem State.pokeByte_i (a' : Nat) (b : Byte) : (s.pokeByte a' b).i = s.i := rfl
@[simp] theorem State.pokeByte_pc (a' : Nat) (b : Byte) : (s.pokeByte a' b).pc = s.pc := rfl
@[simp] theorem State.pokeByte_stack (a' : Nat) (b : Byte) : (s.pokeByte a' b).stack = s.stack := rfl
@[simp] theorem State.pokeByte_sp (a' : Nat) (b : Byte) : (s.pokeByte a' b).sp = s.sp := rfl
@[simp] theorem State.pokeByte_dt (a' : Nat) (b : Byte) : (s.pokeByte a' b).dt = s.dt := rfl
@[simp] theorem State.pokeByte_st (a' : Nat) (b : Byte) : (s.pokeByte a' b).st = s.st := rfl
@[simp] theorem State.pokeByte_key (a' : Nat) (b : Byte) : (s.pokeByte a' b).key = s.key := rfl
@[simp] theorem State.pokeByte_fb (a' : Nat) (b : Byte) : (s.pokeByte a' b).fb = s.fb := rfl
@[simp] theorem State.pokeByte_redraw (a' : Nat) (b : Byte) : (s.pokeByte a' b).redraw = s.redraw := rfl
@[simp] theorem State.pokeByte_status (a' : Nat) (b : Byte) : (s.pokeByte a' b).status = s.status := rfl
@[simp] theorem State.pokeByte_cfg (a' : Nat) (b : Byte) : (s.pokeByte a' b).cfg = s.cfg := rfl
@[simp] theorem State.pokeByte_randIn (a' : Nat) (b : Byte) : (s.pokeByte a' b).randIn = s.randIn := rfl
@[simp] theorem State.pokeByte_randCount (a' : Nat) (b : Byte) : (s.pokeByte a' b).randCount = s.randCount := rfl
@[simp] theorem State.pokeByte_pending (a' : Nat) (b : Byte) : (s.pokeByte a' b).pending = s.pending := rfl
@[simp] theorem State.pokeByte_events (a' : Nat) (b : Byte) : (s.pokeByte a' b).events = s.events := rfl
@[simp] theorem State.pokeByte_getV (a' : Nat) (b : Byte) (x : Nibble) : (s.pokeByte a' b).getV x = s.getV x := rfl
@[simp] theorem State.pokeByte_getKey (a' : Nat) (b : Byte) (k : Fin 16) : (s.pokeByte a' b).getKey k = s.getKey k := rfl
@[simp] theorem State.pokeByte_pixel (a' : Nat) (b : Byte) (px py : Nat) : (s.pokeByte a' b).pixel px py = s.pixel px py := rfl

/-! ## setV -/

@[simp] theorem State.setV_mem (x' : Nibble) (b : Byte) : (s.setV x' b).mem = s.mem := rfl
@[simp] theorem State.setV_v (x' : Nibble) (b : Byte) : (s.setV x' b).v = s.v.set x'.toNat b x'.isLt := rfl
@[simp] theorem State.setV_i (x' : Nibble) (b : Byte) : (s.setV x' b).i = s.i := rfl
@[simp] theorem State.setV_pc (x' : Nibble) (b : Byte) : (s.setV x' b).pc = s.pc := rfl
@[simp] theorem State.setV_stack (x' : Nibble) (b : Byte) : (s.setV x' b).stack = s.stack := rfl
@[simp] theorem State.setV_sp (x' : Nibble) (b : Byte) : (s.setV x' b).sp = s.sp := rfl
@[simp] theorem State.setV_dt (x' : Nibble) (b : Byte) : (s.setV x' b).dt = s.dt := rfl
@[simp] theorem State.setV_st (x' : Nibble) (b : Byte) : (s.setV x' b).st = s.st := rfl
@[simp] theorem State.setV_key (x' : Nibble) (b : Byte) : (s.setV x' b).key = s.key := rfl
@[simp] theorem State.setV_fb (x' : Nibble) (b : Byte) : (s.setV x' b).fb = s.fb := rfl
@[simp] theorem State.setV_redraw (x' : Nibble) (b : Byte) : (s.setV x' b).redraw = s.redraw := rfl
@[simp] theorem State.setV_status (x' : Nibble) (b : Byte) : (s.setV x' b).status = s.status := rfl
@[simp] theorem State.setV_cfg (x' : Nibble) (b : Byte) : (s.setV x' b).cfg = s.cfg := rfl
@[simp] theorem State.setV_randIn (x' : Nibble) (b : Byte) : (s.setV x' b).randIn = s.randIn := rfl
@[simp] theorem State.setV_randCount (x' : Nibble) (b : Byte) : (s.setV x' b).randCount = s.randCount := rfl
@[simp] theorem State.setV_pending (x' : Nibble) (b : Byte) : (s.setV x' b).pending = s.pending := rfl
@[simp] theorem State.setV_events (x' : Nibble) (b : Byte) : (s.setV x' b).events = s.events := rfl
@[simp] theorem State.setV_byteAt (x' : Nibble) (b : Byte) (a : Nat) : (s.setV x' b).byteAt a = s.byteAt a := rfl
@[simp] theorem State.setV_getKey (x' : Nibble) (b : Byte) (k : Fin 16) : (s.setV x' b).getKey k = s.getKey k := rfl
@[simp] theorem State.setV_pixel (x' : Nibble) (b : Byte) (px py : Nat) : (s.setV x' b).pixel px py = s.pixel px py := rfl

/-! ## setI -/

@[simp] theorem State.setI_mem (w : Word) : (s.setI w).mem = s.mem := rfl
@[simp] theorem State.setI_v (w : Word) : (s.setI w).v = s.v := rfl
@[simp] theorem State.setI_i (w : Word) : (s.setI w).i = w := rfl
@[simp] theorem State.setI_pc (w : Word) : (s.setI w).pc = s.pc := rfl
@[simp] theorem State.setI_stack (w : Word) : (s.setI w).stack = s.stack := rfl
@[simp] theorem State.setI_sp (w : Word) : (s.setI w).sp = s.sp := rfl
@[simp] theorem State.setI_dt (w : Word) : (s.setI w).dt = s.dt := rfl
@[simp] theorem State.setI_st (w : Word) : (s.setI w).st = s.st := rfl
@[simp] theorem State.setI_key (w : Word) : (s.setI w).key = s.key := rfl
@[simp] theorem State.setI_fb (w : Word) : (s.setI w).fb = s.fb := rfl
@[simp] theorem State.setI_redraw (w : Word) : (s.setI w).redraw = s.redraw := rfl
@[simp] theorem State.setI_status (w : Word) : (s.setI w).status = s.status := rfl
@[simp] theorem State.setI_cfg (w : Word) : (s.setI w).cfg = s.cfg := rfl
@[simp] theorem State.setI_randIn (w : Word) : (s.setI w).randIn = s.randIn := rfl
@[simp] theorem State.setI_randCount (w : Word) : (s.setI w).randCount = s.randCount := rfl
@[simp] theorem State.setI_pending (w : Word) : (s.setI w).pending = s.pending := rfl
@[simp] theorem State.setI_events (w : Word) : (s.setI w).events = s.events := rfl
@[simp] theorem State.setI_byteAt (w : Word) (a : Nat) : (s.setI w).byteAt a = s.byteAt a := rfl
@[simp] theorem State.setI_getV (w : Word) (x : Nibble) : (s.setI w).getV x = s.getV x := rfl
@[simp] theorem State.setI_getKey (w : Word) (k : Fin 16) : (s.setI w).getKey k = s.getKey k := rfl
@[simp] theorem State.setI_pixel (w : Word) (px py : Nat) : (s.setI w).pixel px py = s.pixel px py := rfl

/-! ## setPc -/

@[simp] theorem State.setPc_mem (w : Word) : (s.setPc w).mem = s.mem := rfl
@[simp] theorem State.setPc_v (w : Word) : (s.setPc w).v = s.v := rfl
@[simp] theorem State.setPc_i (w : Word) : (s.setPc w).i = s.i := rfl
@[simp] theorem State.setPc_pc (w : Word) : (s.setPc w).pc = w := rfl
@[simp] theorem State.setPc_stack (w : Word) : (s.setPc w).stack = s.stack := rfl
@[simp] theorem State.setPc_sp (w : Word) : (s.setPc w).sp = s.sp := rfl
@[simp] theorem State.setPc_dt (w : Word) : (s.setPc w).dt = s.dt := rfl
@[simp] theorem State.setPc_st (w : Word) : (s.setPc w).st = s.st := rfl
@[simp] theorem State.setPc_key (w : Word) : (s.setPc w).key = s.key := rfl
@[simp] theorem State.setPc_fb (w : Word) : (s.setPc w).fb = s.fb := rfl
@[simp] theorem State.setPc_redraw (w : Word) : (s.setPc w).redraw = s.redraw := rfl
@[simp] theorem State.setPc_status (w : Word) : (s.setPc w).status = s.status := rfl
@[simp] theorem State.setPc_cfg (w : Word) : (s.setPc w).cfg = s.cfg := rfl
@[simp] theorem State.setPc_randIn (w : Word) : (s.setPc w).randIn = s.randIn := rfl
@[simp] theorem State.setPc_randCount (w : Word) : (s.setPc w).randCount = s.randCount := rfl
@[simp] theorem State.setPc_pending (w : Word) : (s.setPc w).pending = s.pending := rfl
@[simp] theorem State.setPc_events (w : Word) : (s.setPc w).events = s.events := rfl
@[simp] theorem State.setPc_byteAt (w : Word) (a : Nat) : (s.setPc w).byteAt a = s.byteAt a := rfl
@[simp] theorem State.setPc_getV (w : Word) (x : Nibble) : (s.setPc w).getV x = s.getV x := rfl
@[simp] theorem State.setPc_getKey (w : Word) (k : Fin 16) : (s.setPc w).getKey k = s.getKey k := rfl
@[simp] theorem State.setPc_pixel (w : Word) (px py : Nat) : (s.setPc w).pixel px py = s.pixel px py := rfl

/-! ## setDt -/

@[simp] theorem State.setDt_mem (b : Byte) : (s.setDt b).mem = s.mem := rfl
@[simp] theorem State.setDt_v (b : Byte) : (s.setDt b).v = s.v := rfl
@[simp] theorem State.setDt_i (b : Byte) : (s.setDt b).i = s.i := rfl
@[simp] theorem State.setDt_pc (b : Byte) : (s.setDt b).pc = s.pc := rfl
@[simp] theorem State.setDt_stack (b : Byte) : (s.setDt b).stack = s.stack := rfl
@[simp] theorem State.setDt_sp (b : Byte) : (s.setDt b).sp = s.sp := rfl
@[simp] theorem State.setDt_dt (b : Byte) : (s.setDt b).dt = b := rfl
@[simp] theorem State.setDt_st (b : Byte) : (s.setDt b).st = s.st := rfl
@[simp] theorem State.setDt_key (b : Byte) : (s.setDt b).key = s.key := rfl
@[simp] theorem State.setDt_fb (b : Byte) : (s.setDt b).fb = s.fb := rfl
@[simp] theorem State.setDt_redraw (b : Byte) : (s.setDt b).redraw = s.redraw := rfl
@[simp] theorem State.setDt_status (b : Byte) : (s.setDt b).status = s.status := rfl
@[simp] theorem State.setDt_cfg (b : Byte) : (s.setDt b).cfg = s.cfg := rfl
@[simp] theorem State.setDt_randIn (b : Byte) : (s.setDt b).randIn = s.randIn := rfl
@[simp] theorem State.setDt_randCount (b : Byte) : (s.setDt b).randCount = s.randCount := rfl
@[simp] theorem State.setDt_pending (b : Byte) : (s.setDt b).pending = s.pending := rfl
@[simp] theorem State.setDt_events (b : Byte) : (s.setDt b).events = s.events := rfl
@[simp] theorem State.setDt_byteAt (b : Byte) (a : Nat) : (s.setDt b).byteAt a = s.byteAt a := rfl
@[simp] theorem State.setDt_getV (b : Byte) (x : Nibble) : (s.setDt b).getV x = s.getV x := rfl
@[simp] theorem State.setDt_getKey (b : Byte) (k : Fin 16) : (s.setDt b).getKey k = s.getKey k := rfl
@[simp] theorem State.setDt_pixel (b : Byte) (px py : Nat) : (s.setDt b).pixel px py = s.pixel px py := rfl

/-! ## setSt -/

@[simp] theorem State.setSt_mem (b : Byte) : (s.setSt b).mem = s.mem := rfl
@[simp] theorem State.setSt_v (b : Byte) : (s.setSt b).v = s.v := rfl
@[simp] theorem State.setSt_i (b : Byte) : (s.setSt b).i = s.i := rfl
@[simp] theorem State.setSt_pc (b : Byte) : (s.setSt b).pc = s.pc := rfl
@[simp] theorem State.setSt_stack (b : Byte) : (s.setSt b).stack = s.stack := rfl
@[simp] theorem State.setSt_sp (b : Byte) : (s.setSt b).sp = s.sp := rfl
@[simp] theorem State.setSt_dt (b : Byte) : (s.setSt b).dt = s.dt := rfl
@[simp] theorem State.setSt_st (b : Byte) : (s.setSt b).st = b := rfl
@[simp] theorem State.setSt_key (b : Byte) : (s.setSt b).key = s.key := rfl
@[simp] theorem State.setSt_fb (b : Byte) : (s.setSt b).fb = s.fb := rfl
@[simp] theorem State.setSt_redraw (b : Byte) : (s.setSt b).redraw = s.redraw := rfl
@[simp] theorem State.setSt_status (b : Byte) : (s.setSt b).status = s.status := rfl
@[simp] theorem State.setSt_cfg (b : Byte) : (s.setSt b).cfg = s.cfg := rfl
@[simp] theorem State.setSt_randIn (b : Byte) : (s.setSt b).randIn = s.randIn := rfl
@[simp] theorem State.setSt_randCount (b : Byte) : (s.setSt b).randCount = s.randCount := rfl
@[simp] theorem State.setSt_pending (b : Byte) : (s.setSt b).pending = s.pending := rfl
@[simp] theorem State.setSt_events (b : Byte) : (s.setSt b).events = s.events := rfl
@[simp] theorem State.setSt_byteAt (b : Byte) (a : Nat) : (s.setSt b).byteAt a = s.byteAt a := rfl
@[simp] theorem State.setSt_getV (b : Byte) (x : Nibble) : (s.setSt b).getV x = s.getV x := rfl
@[simp] theorem State.setSt_getKey (b : Byte) (k : Fin 16) : (s.setSt b).getKey k = s.getKey k := rfl
@[simp] theorem State.setSt_pixel (b : Byte) (px py : Nat) : (s.setSt b).pixel px py = s.pixel px py := rfl

/-! ## setKey -/

@[simp] theorem State.setKey_mem (k' : Fin 16) (b : Bool) : (s.setKey k' b).mem = s.mem := rfl
@[simp] theorem State.setKey_v (k' : Fin 16) (b : Bool) : (s.setKey k' b).v = s.v := rfl
@[simp] theorem State.setKey_i (k' : Fin 16) (b : Bool) : (s.setKey k' b).i = s.i := rfl
@[simp] theorem State.setKey_pc (k' : Fin 16) (b : Bool) : (s.setKey k' b).pc = s.pc := rfl
@[simp] theorem State.setKey_stack (k' : Fin 16) (b : Bool) : (s.setKey k' b).stack = s.stack := rfl
@[simp] theorem State.setKey_sp (k' : Fin 16) (b : Bool) : (s.setKey k' b).sp = s.sp := rfl
@[simp] theorem State.setKey_dt (k' : Fin 16) (b : Bool) : (s.setKey k' b).dt = s.dt := rfl
@[simp] theorem State.setKey_st (k' : Fin 16) (b : Bool) : (s.setKey k' b).st = s.st := rfl
@[simp] theorem State.setKey_key (k' : Fin 16) (b : Bool) : (s.setKey k' b).key = s.key.set k'.val b k'.isLt := rfl
@[simp] theorem State.setKey_fb (k' : Fin 16) (b : Bool) : (s.setKey k' b).fb = s.fb := rfl
@[simp] theorem State.setKey_redraw (k' : Fin 16) (b : Bool) : (s.setKey k' b).redraw = s.redraw := rfl
@[simp] theorem State.setKey_status (k' : Fin 16) (b : Bool) : (s.setKey k' b).status = s.status := rfl
@[simp] theorem State.setKey_cfg (k' : Fin 16) (b : Bool) : (s.setKey k' b).cfg = s.cfg := rfl
@[simp] theorem State.setKey_randIn (k' : Fin 16) (b : Bool) : (s.setKey k' b).randIn = s.randIn := rfl
@[simp] theorem State.setKey_randCount (k' : Fin 16) (b : Bool) : (s.setKey k' b).randCount = s.randCount := rfl
@[simp] theorem State.setKey_pending (k' : Fin 16) (b : Bool) : (s.setKey k' b).pending = s.pending := rfl
@[simp] theorem State.setKey_events (k' : Fin 16) (b : Bool) : (s.setKey k' b).events = s.events := rfl
@[simp] theorem State.setKey_byteAt (k' : Fin 16) (b : Bool) (a : Nat) : (s.setKey k' b).byteAt a = s.byteAt a := rfl
@[simp] theorem State.setKey_getV (k' : Fin 16) (b : Bool) (x : Nibble) : (s.setKey k' b).getV x = s.getV x := rfl
@[simp] theorem State.setKey_pixel (k' : Fin 16) (b : Bool) (px py : Nat) : (s.setKey k' b).pixel px py = s.pixel px py := rfl

/-! ## setFb -/

@[simp] theorem State.setFb_mem (rows : Rows) : (s.setFb rows).mem = s.mem := rfl
@[simp] theorem State.setFb_v (rows : Rows) : (s.setFb rows).v = s.v := rfl
@[simp] theorem State.setFb_i (rows : Rows) : (s.setFb rows).i = s.i := rfl
@[simp] theorem State.setFb_pc (rows : Rows) : (s.setFb rows).pc = s.pc := rfl
@[simp] theorem State.setFb_stack (rows : Rows) : (s.setFb rows).stack = s.stack := rfl
@[simp] theorem State.setFb_sp (rows : Rows) : (s.setFb rows).sp = s.sp := rfl
@[simp] theorem State.setFb_dt (rows : Rows) : (s.setFb rows).dt = s.dt := rfl
@[simp] theorem State.setFb_st (rows : Rows) : (s.setFb rows).st = s.st := rfl
@[simp] theorem State.setFb_key (rows : Rows) : (s.setFb rows).key = s.key := rfl
@[simp] theorem State.setFb_fb (rows : Rows) : (s.setFb rows).fb = rows := rfl
@[simp] theorem State.setFb_redraw (rows : Rows) : (s.setFb rows).redraw = s.redraw := rfl
@[simp] theorem State.setFb_status (rows : Rows) : (s.setFb rows).status = s.status := rfl
@[simp] theorem State.setFb_cfg (rows : Rows) : (s.setFb rows).cfg = s.cfg := rfl
@[simp] theorem State.setFb_randIn (rows : Rows) : (s.setFb rows).randIn = s.randIn := rfl
@[simp] theorem State.setFb_randCount (rows : Rows) : (s.setFb rows).randCount = s.randCount := rfl
@[simp] theorem State.setFb_pending (rows : Rows) : (s.setFb rows).pending = s.pending := rfl
@[simp] theorem State.setFb_events (rows : Rows) : (s.setFb rows).events = s.events := rfl
@[simp] theorem State.setFb_byteAt (rows : Rows) (a : Nat) : (s.setFb rows).byteAt a = s.byteAt a := rfl
@[simp] theorem State.setFb_getV (rows : Rows) (x : Nibble) : (s.setFb rows).getV x = s.getV x := rfl
@[simp] theorem State.setFb_getKey (rows : Rows) (k : Fin 16) : (s.setFb rows).getKey k = s.getKey k := rfl

/-! ## setRedraw -/

@[simp] theorem State.setRedraw_mem (b : Bool) : (s.setRedraw b).mem = s.mem := rfl
@[simp] theorem State.setRedraw_v (b : Bool) : (s.setRedraw b).v = s.v := rfl
@[simp] theorem State.setRedraw_i (b : Bool) : (s.setRedraw b).i = s.i := rfl
@[simp] theorem State.setRedraw_pc (b : Bool) : (s.setRedraw b).pc = s.pc := rfl
@[simp] theorem State.setRedraw_stack (b : Bool) : (s.setRedraw b).stack = s.stack := rfl
@[simp] theorem State.setRedraw_sp (b : Bool) : (s.setRedraw b).sp = s.sp := rfl
@[simp] theorem State.setRedraw_dt (b : Bool) : (s.setRedraw b).dt = s.dt := rfl
@[simp] theorem State.setRedraw_st (b : Bool) : (s.setRedraw b).st = s.st := rfl
@[simp] theorem State.setRedraw_key (b : Bool) : (s.setRedraw b).key = s.key := rfl
@[simp] theorem State.setRedraw_fb (b : Bool) : (s.setRedraw b).fb = s.fb := rfl
@[simp] theorem State.setRedraw_redraw (b : Bool) : (s.setRedraw b).redraw = b := rfl
@[simp] theorem State.setRedraw_status (b : Bool) : (s.setRedraw b).status = s.status := rfl
@[simp] theorem State.setRedraw_cfg (b : Bool) : (s.setRedraw b).cfg = s.cfg := rfl
@[simp] theorem State.setRedraw_randIn (b : Bool) : (s.setRedraw b).randIn = s.randIn := rfl
@[simp] theorem State.setRedraw_randCount (b : Bool) : (s.setRedraw b).randCount = s.randCount := rfl
@[simp] theorem State.setRedraw_pending (b : Bool) : (s.setRedraw b).pending = s.pending := rfl
@[simp] theorem State.setRedraw_events (b : Bool) : (s.setRedraw b).events = s.events := rfl
@[simp] theorem State.setRedraw_byteAt (b : Bool) (a : Nat) : (s.setRedraw b).byteAt a = s.byteAt a := rfl
@[simp] theorem State.setRedraw_getV (b : Bool) (x : Nibble) : (s.setRedraw b).getV x = s.getV x := rfl
@[simp] theorem State.setRedraw_getKey (b : Bool) (k : Fin 16) : (s.setRedraw b).getKey k = s.getKey k := rfl
@[simp] theorem State.setRedraw_pixel (b : Bool) (px py : Nat) : (s.setRedraw b).pixel px py = s.pixel px py := rfl

/-! ## setStatus -/

@[simp] theorem State.setStatus_mem (q : Status) : (s.setStatus q).mem = s.mem := rfl
@[simp] theorem State.setStatus_v (q : Status) : (s.setStatus q).v = s.v := rfl
@[simp] theorem State.setStatus_i (q : Status) : (s.setStatus q).i = s.i := rfl
@[simp] theorem State.setStatus_pc (q : Status) : (s.setStatus q).pc = s.pc := rfl
@[simp] theorem State.setStatus_stack (q : Status) : (s.setStatus q).stack = s.stack := rfl
@[simp] theorem State.setStatus_sp (q : Status) : (s.setStatus q).sp = s.sp := rfl
@[simp] theorem State.setStatus_dt (q : Status) : (s.setStatus q).dt = s.dt := rfl
@[simp] theorem State.setStatus_st (q : Status) : (s.setStatus q).st = s.st := rfl
@[simp] theorem State.setStatus_key (q : Status) : (s.setStatus q).key = s.key := rfl
@[simp] theorem State.setStatus_fb (q : Status) : (s.setStatus q).fb = s.fb := rfl
@[simp] theorem State.setStatus_redraw (q : Status) : (s.setStatus q).redraw = s.redraw := rfl
@[simp] theorem State.setStatus_status (q : Status) : (s.setStatus q).status = q := rfl
@[simp] theorem State.setStatus_cfg (q : Status) : (s.setStatus q).cfg = s.cfg := rfl
@[simp] theorem State.setStatus_randIn (q : Status) : (s.setStatus q).randIn = s.randIn := rfl
@[simp] theorem State.setStatus_randCount (q : Status) : (s.setStatus q).randCount = s.randCount := rfl
@[simp] theorem State.setStatus_pending (q : Status) : (s.setStatus q).pending = s.pending := rfl
@[simp] theorem State.setStatus_events (q : Status) : (s.setStatus q).events = s.events := rfl
@[simp] theorem State.setStatus_byteAt (q : Status) (a : Nat) : (s.setStatus q).byteAt a = s.byteAt a := rfl
@[simp] theorem State.setStatus_getV (q : Status) (x : Nibble) : (s.setStatus q).getV x = s.getV x := rfl
@[simp] theorem State.setStatus_getKey (q : Status) (k : Fin 16) : (s.setStatus q).getKey k = s.getKey k := rfl
@[simp] theorem State.setStatus_pixel (q : Status) (px py : Nat) : (s.setStatus q).pixel px py = s.pixel px py := rfl

/-! ## emit -/

@[simp] theorem State.emit_mem (e : Event) : (s.emit e).mem = s.mem := rfl
@[simp] theorem State.emit_v (e : Event) : (s.emit e).v = s.v := rfl
@[simp] theorem State.emit_i (e : Event) : (s.emit e).i = s.i := rfl
@[simp] theorem State.emit_pc (e : Event) : (s.emit e).pc = s.pc := rfl
@[simp] theorem State.emit_stack (e : Event) : (s.emit e).stack = s.stack := rfl
@[simp] theorem State.emit_sp (e : Event) : (s.emit e).sp = s.sp := rfl
@[simp] theorem State.emit_dt (e : Event) : (s.emit e).dt = s.dt := rfl
@[simp] theorem State.emit_st (e : Event) : (s.emit e).st = s.st := rfl
@[simp] theorem State.emit_key (e : Event) : (s.emit e).key = s.key := rfl
@[simp] theorem State.emit_fb (e : Event) : (s.emit e).fb = s.fb := rfl
@[simp] theorem State.emit_redraw (e : Event) : (s.emit e).redraw = s.redraw := rfl
@[simp] theorem State.emit_status (e : Event) : (s.emit e).status = s.status := rfl
@[simp] theorem State.emit_cfg (e : Event) : (s.emit e).cfg = s.cfg := rfl
@[simp] theorem State.emit_randIn (e : Event) : (s.emit e).randIn = s.randIn := rfl
@[simp] theorem State.emit_randCount (e : Event) : (s.emit e).randCount = s.randCount := rfl
@[simp] theorem State.emit_pending (e : Event) : (s.emit e).pending = s.pending := rfl
@[simp] theorem State.emit_events (e : Event) : (s.emit e).events = e :: s.events := rfl
@[simp] theorem State.emit_byteAt (e : Event) (a : Nat) : (s.emit e).byteAt a = s.byteAt a := rfl
@[simp] theorem State.emit_getV (e : Event) (x : Nibble) : (s.emit e).getV x = s.getV x := rfl
@[simp] theorem State.emit_getKey (e : Event) (k : Fin 16) : (s.emit e).getKey k = s.getKey k := rfl
@[simp] theorem State.emit_pixel (e : Event) (px py : Nat) : (s.emit e).pixel px py = s.pixel px py := rfl

/-! ## beginCycle and takePending -/

@[simp] theorem beginCycle_mem (r : Option Byte) : (beginCycle r s).mem = s.mem := rfl
@[simp] theorem beginCycle_v (r : Option Byte) : (beginCycle r s).v = s.v := rfl
@[simp] theorem beginCycle_i (r : Option Byte) : (beginCycle r s).i = s.i := rfl
@[simp] theorem beginCycle_pc (r : Option Byte) : (beginCycle r s).pc = s.pc := rfl
@[simp] theorem beginCycle_stack (r : Option Byte) : (beginCycle r s).stack = s.stack := rfl
@[simp] theorem beginCycle_sp (r : Option Byte) : (beginCycle r s).sp = s.sp := rfl
@[simp] theorem beginCycle_dt (r : Option Byte) : (beginCycle r s).dt = s.dt := rfl
@[simp] theorem beginCycle_st (r : Option Byte) : (beginCycle r s).st = s.st := rfl
@[simp] theorem beginCycle_key (r : Option Byte) : (beginCycle r s).key = s.key := rfl
@[simp] theorem beginCycle_fb (r : Option Byte) : (beginCycle r s).fb = s.fb := rfl
@[simp] theorem beginCycle_redraw (r : Option Byte) : (beginCycle r s).redraw = false := rfl
@[simp] theorem beginCycle_status (r : Option Byte) : (beginCycle r s).status = s.status := rfl
@[simp] theorem beginCycle_cfg (r : Option Byte) : (beginCycle r s).cfg = s.cfg := rfl
@[simp] theorem beginCycle_randIn (r : Option Byte) : (beginCycle r s).randIn = r := rfl
@[simp] theorem beginCycle_randCount (r : Option Byte) : (beginCycle r s).randCount = s.randCount + 1 := rfl
@[simp] theorem beginCycle_pending (r : Option Byte) : (beginCycle r s).pending = s.pending := rfl
@[simp] theorem beginCycle_events (r : Option Byte) : (beginCycle r s).events = s.events := rfl
@[simp] theorem beginCycle_byteAt (r : Option Byte) (a : Nat) : (beginCycle r s).byteAt a = s.byteAt a := rfl
@[simp] theorem beginCycle_getV (r : Option Byte) (x : Nibble) : (beginCycle r s).getV x = s.getV x := rfl
@[simp] theorem beginCycle_getKey (r : Option Byte) (k : Fin 16) : (beginCycle r s).getKey k = s.getKey k := rfl
@[simp] theorem beginCycle_pixel (r : Option Byte) (px py : Nat) : (beginCycle r s).pixel px py = s.pixel px py := rfl

@[simp] theorem takePending_mem : (takePending s).mem = s.mem := rfl
@[simp] theorem takePending_v : (takePending s).v = s.v := rfl
@[simp] theorem takePending_i : (takePending s).i = s.i := rfl
@[simp] theorem takePending_pc : (takePending s).pc = s.pc := rfl
@[simp] theorem takePending_stack : (takePending s).stack = s.stack := rfl
@[simp] theorem takePending_sp : (takePending s).sp = s.sp := rfl
@[simp] theorem takePending_dt : (takePending s).dt = s.dt := rfl
@[simp] theorem takePending_st : (takePending s).st = s.st := rfl
@[simp] theorem takePending_key : (takePending s).key = s.key := rfl
@[simp] theorem takePending_fb : (takePending s).fb = s.fb := rfl
@[simp] theorem takePending_redraw : (takePending s).redraw = s.redraw := rfl
@[simp] theorem takePending_status : (takePending s).status = s.status := rfl
@[simp] theorem takePending_cfg : (takePending s).cfg = s.cfg := rfl
@[simp] theorem takePending_randIn : (takePending s).randIn = s.randIn := rfl
@[simp] theorem takePending_randCount : (takePending s).randCount = s.randCount := rfl
@[simp] theorem takePending_pending : (takePending s).pending = s.pending.tail := rfl
@[simp] theorem takePending_events : (takePending s).events = s.events := rfl
@[simp] theorem takePending_byteAt (a : Nat) : (takePending s).byteAt a = s.byteAt a := rfl
@[simp] theorem takePending_getV (x : Nibble) : (takePending s).getV x = s.getV x := rfl
@[simp] theorem takePending_getKey (k : Fin 16) : (takePending s).getKey k = s.getKey k := rfl
@[simp] theorem takePending_pixel (px py : Nat) : (takePending s).pixel px py = s.pixel px py := rfl

/-! ## The PC writes and the Fatal condition, as updates -/

@[simp] theorem State.advance_eq : s.advance = s.setPc (s.pc + 2) := rfl
@[simp] theorem State.skipIf_eq (c : Bool) : s.skipIf c = s.setPc (if c then s.pc + 4 else s.pc + 2) := rfl
@[simp] theorem State.raiseFatal_eq (cause : FatalCause) (word : Option Word) :
    s.raiseFatal cause word = (s.emit (.fatal cause s.pc word)).setStatus (.halted cause) := rfl

end Sys2Proof.Machine
end

