-- ==== Sys2Proof/Laws/Memory.lean ====
section
/-! SUPPORT. The laws of memory: a read after a write, and that every memory operation keeps the
canonical form. -/

namespace Sys2Proof.Machine

variable {font : Font}

/-! ## Reading after writing -/

theorem Memory.read_cell_append (a a' : Nat) (b : Byte) (m : Memory) :
    Memory.read font (Memory.cell font a b ++ m) a' =
      if a' = a then (if b = Memory.unlisted font a then Memory.read font m a else b)
      else Memory.read font m a' := by
  unfold Memory.cell
  split <;> simp_all [Memory.read]

theorem Memory.read_eq_unlisted_of_lt {m : Memory} {lo a : Nat}
    (h : Memory.wfFrom font lo m = true) (ha : a < lo) :
    Memory.read font m a = Memory.unlisted font a := by
  induction m generalizing lo with
  | nil => rfl
  | cons p m ih =>
    obtain ⟨a', b'⟩ := p
    simp only [Memory.wfFrom, Bool.and_eq_true, decide_eq_true_eq] at h
    have hne : a ≠ a' := by omega
    simp only [Memory.read, hne, if_false]
    exact ih h.2 (by omega)

/-- A write changes the byte it names and no other, in a canonical memory. -/
theorem Memory.read_write {m : Memory} {lo : Nat} (hm : Memory.wfFrom font lo m = true)
    (a a' : Nat) (b : Byte) :
    Memory.read font (Memory.write font m a b) a' = if a' = a then b else Memory.read font m a' := by
  induction m generalizing lo with
  | nil =>
    have h := Memory.read_cell_append (font := font) a a' b []
    simp only [List.append_nil, Memory.read] at h
    simp only [Memory.write, Memory.read, h]
    grind
  | cons p m ih =>
    obtain ⟨x, y⟩ := p
    simp only [Memory.wfFrom, Bool.and_eq_true, decide_eq_true_eq] at hm
    simp only [Memory.write]
    split
    · rename_i hlt
      rw [Memory.read_cell_append]
      have hun : Memory.read font ((x, y) :: m) a = Memory.unlisted font a := by
        have hne : a ≠ x := by omega
        simp only [Memory.read, hne, if_false]
        exact Memory.read_eq_unlisted_of_lt hm.2 (by omega)
      grind
    · split
      · rename_i hax
        subst hax
        rw [Memory.read_cell_append, Memory.read_eq_unlisted_of_lt hm.2 (by omega)]
        simp only [Memory.read]
        grind
      · rename_i h1 h2
        simp only [Memory.read, ih hm.2]
        grind

/-! ## The canonical form -/

/-- The memory of the state after reset, which lists nothing, is canonical. -/
theorem Memory.wf_nil : Memory.wf font [] = true := rfl

theorem Memory.wfFrom_mono {m : Memory} {lo lo' : Nat} (h : Memory.wfFrom font lo m = true)
    (hl : lo' ≤ lo) : Memory.wfFrom font lo' m = true := by
  cases m with
  | nil => rfl
  | cons p m =>
    simp only [Memory.wfFrom, Bool.and_eq_true, decide_eq_true_eq] at h ⊢
    exact ⟨⟨⟨by omega, h.1.1.2⟩, h.1.2⟩, h.2⟩

theorem Memory.wfFrom_cell_append {m : Memory} {lo a : Nat} {b : Byte} (hlo : lo ≤ a)
    (ha : a < memSize) (hm : Memory.wfFrom font (a + 1) m = true) :
    Memory.wfFrom font lo (Memory.cell font a b ++ m) = true := by
  unfold Memory.cell
  split
  · exact Memory.wfFrom_mono hm (by omega)
  · rename_i hb
    simp [Memory.wfFrom, hlo, ha, hb, hm]

/-- A write keeps the canonical form. -/
theorem Memory.wfFrom_write {m : Memory} {lo a : Nat} {b : Byte} (hlo : lo ≤ a)
    (ha : a < memSize) (hm : Memory.wfFrom font lo m = true) :
    Memory.wfFrom font lo (Memory.write font m a b) = true := by
  induction m generalizing lo with
  | nil =>
    have := Memory.wfFrom_cell_append (font := font) (b := b) (m := []) hlo ha rfl
    simpa [Memory.write] using this
  | cons p m ih =>
    obtain ⟨x, y⟩ := p
    simp only [Memory.wfFrom, Bool.and_eq_true, decide_eq_true_eq] at hm
    simp only [Memory.write]
    split
    · apply Memory.wfFrom_cell_append hlo ha
      simp only [Memory.wfFrom, Bool.and_eq_true, decide_eq_true_eq]
      exact ⟨⟨⟨by omega, hm.1.1.2⟩, hm.1.2⟩, hm.2⟩
    · split
      · rename_i hax
        subst hax
        exact Memory.wfFrom_cell_append hlo ha hm.2
      · simp only [Memory.wfFrom, Bool.and_eq_true, decide_eq_true_eq]
        exact ⟨⟨⟨by omega, hm.1.1.2⟩, hm.1.2⟩, ih (by omega) hm.2⟩

theorem Memory.wf_write {m : Memory} {a : Nat} {b : Byte} (ha : a < memSize)
    (hm : Memory.wf font m = true) : Memory.wf font (Memory.write font m a b) = true :=
  Memory.wfFrom_write (Nat.zero_le a) ha hm

/-- An image that fits is canonical. -/
theorem Memory.wfFrom_image (bs : List Byte) {a : Nat} (h : a + bs.length ≤ memSize) :
    Memory.wfFrom font a (Memory.image font a bs) = true := by
  induction bs generalizing a with
  | nil => rfl
  | cons b bs ih =>
    simp only [List.length_cons] at h
    exact Memory.wfFrom_cell_append (Nat.le_refl a) (by omega) (ih (by omega))

theorem Memory.wf_image (bs : List Byte) {a : Nat} (h : a + bs.length ≤ memSize) :
    Memory.wf font (Memory.image font a bs) = true :=
  Memory.wfFrom_mono (Memory.wfFrom_image bs h) (Nat.zero_le a)

/-- What an image reads as: its bytes, and elsewhere what an unlisted address reads as. -/
theorem Memory.read_image (bs : List Byte) (a k : Nat) (h : a + bs.length ≤ memSize) :
    Memory.read font (Memory.image font a bs) k =
      if a ≤ k then bs.getD (k - a) (Memory.unlisted font k) else Memory.unlisted font k := by
  induction bs generalizing a with
  | nil => simp [Memory.image, Memory.read]
  | cons b bs ih =>
    simp only [List.length_cons] at h
    have hw := Memory.wfFrom_image (font := font) bs (a := a + 1) (by omega)
    rw [Memory.image, Memory.read_cell_append, ih _ (by omega)]
    by_cases hk : k = a
    · subst hk
      rw [Memory.read_eq_unlisted_of_lt hw (by omega)]
      simp
      exact Eq.symm
    · by_cases hle : a ≤ k
      · have e : k - a = (k - (a + 1)) + 1 := by omega
        have hle' : a + 1 ≤ k := by omega
        simp [hk, hle, hle', e]
      · have hle' : ¬ a + 1 ≤ k := by omega
        simp [hk, hle, hle']

end Sys2Proof.Machine
end

