-- ==== Sys2Proof/Laws/Ops.lean ====
section
/-! SUPPORT. One lemma for each shared operation that says what it does: registers, latches, the
checks, the stores, the register transfers, the call stack, the flag write. -/

namespace Sys2Proof.Machine

variable (s : State)

/-! ## Registers and latches -/

theorem State.getV_setV (x y : Nibble) (b : Byte) :
    (s.setV x b).getV y = if y = x then b else s.getV y := by
  simp [State.getV, State.setV, Vector.getElem_set, BitVec.toNat_inj, eq_comm]

@[simp] theorem State.getV_setV_self (x : Nibble) (b : Byte) : (s.setV x b).getV x = b := by
  simp [State.getV_setV]

theorem State.getKey_setKey (k j : Fin 16) (b : Bool) :
    (s.setKey k b).getKey j = if j = k then b else s.getKey j := by
  simp [State.getKey, State.setKey, Vector.getElem_set, Fin.val_inj, eq_comm]

/-- The least set key, where there is one (R213). -/
theorem State.firstKey_eq_some {k : Fin 16} :
    s.firstKey = some k ↔ s.getKey k = true ∧ ∀ j < k, s.getKey j = false := by
  rw [State.firstKey, List.find?_eq_some_iff_getElem]
  constructor
  · rintro ⟨hk, n, hn, hnk, hlt⟩
    refine ⟨hk, fun j hj => ?_⟩
    have e : k.val = n := by rw [← hnk]; simp
    have := hlt j.val (by omega)
    simpa using this
  · rintro ⟨hk, hlt⟩
    refine ⟨hk, k.val, by simp, by simp, fun j hj => ?_⟩
    have := hlt ⟨j, by omega⟩ hj
    simpa using this

theorem State.firstKey_eq_none : s.firstKey = none ↔ ∀ k, s.getKey k = false := by
  simp [State.firstKey]

/-! ## The call stack -/

theorem State.push_of_lt {w : Word} (h : s.sp.val < 16) :
    s.push w = some { s with stack := s.stack.set s.sp.val w h, sp := ⟨s.sp.val + 1, by omega⟩ } := by
  simp [State.push, h]

theorem State.push_of_full {w : Word} (h : s.sp.val = 16) : s.push w = none := by
  simp [State.push, h]

theorem State.pop_of_pos (h : 0 < s.sp.val) :
    s.pop = some (s.stack[s.sp.val - 1]'(by omega), { s with sp := ⟨s.sp.val - 1, by omega⟩ }) := by
  simp [State.pop, h]

theorem State.pop_of_empty (h : s.sp.val = 0) : s.pop = none := by
  simp [State.pop, h]

/-! ## The checks (R53, R54, R55) -/

/-- Reads fail exactly when some address is 0x1000 or above. -/
theorem firstFault_readCheck (base n : Nat) :
    firstFault readCheck base n =
      if n = 0 ∨ base + n ≤ 0x1000 then none else some .addressOutOfRange := by
  unfold firstFault
  split
  · rename_i h
    rw [List.findSome?_eq_none_iff]
    intro a ha
    simp only [List.mem_map, List.mem_range] at ha
    obtain ⟨k, hk, rfl⟩ := ha
    have : ¬ 0x1000 ≤ base + k := by omega
    simp [readCheck, this]
  · rename_i h
    cases hf : ((List.range n).map fun k => base + k).findSome? readCheck with
    | none =>
      rw [List.findSome?_eq_none_iff] at hf
      have := hf (base + (n - 1)) (List.mem_map.2 ⟨n - 1, by simp; omega, rfl⟩)
      have hle : 0x1000 ≤ base + (n - 1) := by omega
      simp [readCheck, hle] at this
    | some c =>
      obtain ⟨a, -, ha⟩ := List.exists_of_findSome?_eq_some hf
      unfold readCheck at ha
      split at ha <;> simp_all

/-- Writes from `base` fail at once in a protected font; else exactly when some address is 0x1000
or above. -/
theorem firstFault_writeCheck (c : Config) (base n : Nat) (hn : 0 < n) :
    firstFault (writeCheck c) base n =
      if base < 0x050 ∧ c.fontWrite = .fault then some .fontWrite
      else if base + n ≤ 0x1000 then none else some .addressOutOfRange := by
  obtain ⟨m, rfl⟩ : ∃ m, n = m + 1 := ⟨n - 1, by omega⟩
  unfold firstFault
  split
  · rename_i h
    have hlt : ¬ 0x1000 ≤ base := by omega
    rw [List.range_succ_eq_map]
    simp [writeCheck, h, hlt]
  · rename_i h
    have key : ∀ a, base ≤ a → writeCheck c a = readCheck a := by
      intro a ha
      have h' : ¬ (a < 0x050 ∧ c.fontWrite = .fault) := by
        intro ⟨h1, h2⟩; exact h ⟨by omega, h2⟩
      unfold writeCheck readCheck
      simp only [h', if_false]
    have := firstFault_readCheck base (m + 1)
    unfold firstFault at this
    have hcongr : ((List.range (m + 1)).map fun k => base + k).findSome? (writeCheck c)
        = ((List.range (m + 1)).map fun k => base + k).findSome? readCheck := by
      rw [List.findSome?_map, List.findSome?_map]
      congr 1
      funext k
      exact key _ (Nat.le_add_right base k)
    rw [hcongr, this]
    simp

/-- An instruction that checks first answers a next state in either case. -/
theorem checked_eq (f : Option FatalCause) (i : Instr) (t : State) :
    checked f i s t =
      .next (match f with | some c => s.raiseFatal c (some (encode i)) | none => t) := by
  cases f <;> rfl

/-! ## Bytes of memory -/

theorem State.byteAt_pokeByte (h : s.MemOk) (a a' : Nat) (b : Byte) :
    (s.pokeByte a b).byteAt a' = if a' = a then b else s.byteAt a' :=
  Memory.read_write h a a' b

theorem State.memOk_pokeByte {a : Nat} (ha : a < memSize) (b : Byte) (h : s.MemOk) :
    (s.pokeByte a b).MemOk :=
  Memory.wf_write ha h

theorem State.memOk_storeByte {a : Nat} (ha : a < memSize) (b : Byte) (h : s.MemOk) :
    (s.storeByte a b).MemOk := by
  unfold State.storeByte
  split
  · exact h
  · exact s.memOk_pokeByte ha b h

theorem State.byteAt_storeByte (h : s.MemOk) (a a' : Nat) (b : Byte) :
    (s.storeByte a b).byteAt a' =
      if a' = a ∧ (0x050 ≤ a ∨ s.cfg.fontWrite = .write) then b else s.byteAt a' := by
  unfold State.storeByte
  split
  · grind
  · rw [s.byteAt_pokeByte h]
    grind

/-- A store changes no field but the memory. -/
theorem State.storeByte_frame (a : Nat) (b : Byte) :
    { s with mem := (s.storeByte a b).mem } = s.storeByte a b := by
  unfold State.storeByte
  split <;> rfl

theorem State.storeBytes_frame (base : Nat) (bs : List Byte) :
    { s with mem := (s.storeBytes base bs).mem } = s.storeBytes base bs := by
  induction bs generalizing s base with
  | nil => rfl
  | cons b bs ih =>
    show { s with mem := ((s.storeByte base b).storeBytes (base + 1) bs).mem } = _
    conv_rhs => rw [State.storeBytes, ← ih (s.storeByte base b) (base + 1)]
    rw [← s.storeByte_frame base b]

@[simp] theorem State.storeBytes_v (base : Nat) (bs : List Byte) : (s.storeBytes base bs).v = s.v :=
  (congrArg State.v (s.storeBytes_frame base bs)).symm
@[simp] theorem State.storeBytes_i (base : Nat) (bs : List Byte) : (s.storeBytes base bs).i = s.i :=
  (congrArg State.i (s.storeBytes_frame base bs)).symm
@[simp] theorem State.storeBytes_pc (base : Nat) (bs : List Byte) : (s.storeBytes base bs).pc = s.pc :=
  (congrArg State.pc (s.storeBytes_frame base bs)).symm
@[simp] theorem State.storeBytes_stack (base : Nat) (bs : List Byte) : (s.storeBytes base bs).stack = s.stack :=
  (congrArg State.stack (s.storeBytes_frame base bs)).symm
@[simp] theorem State.storeBytes_sp (base : Nat) (bs : List Byte) : (s.storeBytes base bs).sp = s.sp :=
  (congrArg State.sp (s.storeBytes_frame base bs)).symm
@[simp] theorem State.storeBytes_dt (base : Nat) (bs : List Byte) : (s.storeBytes base bs).dt = s.dt :=
  (congrArg State.dt (s.storeBytes_frame base bs)).symm
@[simp] theorem State.storeBytes_st (base : Nat) (bs : List Byte) : (s.storeBytes base bs).st = s.st :=
  (congrArg State.st (s.storeBytes_frame base bs)).symm
@[simp] theorem State.storeBytes_key (base : Nat) (bs : List Byte) : (s.storeBytes base bs).key = s.key :=
  (congrArg State.key (s.storeBytes_frame base bs)).symm
@[simp] theorem State.storeBytes_fb (base : Nat) (bs : List Byte) : (s.storeBytes base bs).fb = s.fb :=
  (congrArg State.fb (s.storeBytes_frame base bs)).symm
@[simp] theorem State.storeBytes_redraw (base : Nat) (bs : List Byte) : (s.storeBytes base bs).redraw = s.redraw :=
  (congrArg State.redraw (s.storeBytes_frame base bs)).symm
@[simp] theorem State.storeBytes_status (base : Nat) (bs : List Byte) : (s.storeBytes base bs).status = s.status :=
  (congrArg State.status (s.storeBytes_frame base bs)).symm
@[simp] theorem State.storeBytes_cfg (base : Nat) (bs : List Byte) : (s.storeBytes base bs).cfg = s.cfg :=
  (congrArg State.cfg (s.storeBytes_frame base bs)).symm
@[simp] theorem State.storeBytes_randIn (base : Nat) (bs : List Byte) : (s.storeBytes base bs).randIn = s.randIn :=
  (congrArg State.randIn (s.storeBytes_frame base bs)).symm
@[simp] theorem State.storeBytes_randCount (base : Nat) (bs : List Byte) : (s.storeBytes base bs).randCount = s.randCount :=
  (congrArg State.randCount (s.storeBytes_frame base bs)).symm
@[simp] theorem State.storeBytes_pending (base : Nat) (bs : List Byte) : (s.storeBytes base bs).pending = s.pending :=
  (congrArg State.pending (s.storeBytes_frame base bs)).symm
@[simp] theorem State.storeBytes_events (base : Nat) (bs : List Byte) : (s.storeBytes base bs).events = s.events :=
  (congrArg State.events (s.storeBytes_frame base bs)).symm
@[simp] theorem State.storeBytes_getV (base : Nat) (bs : List Byte) (x : Nibble) : (s.storeBytes base bs).getV x = s.getV x := by
  simp [State.getV]
@[simp] theorem State.storeBytes_getKey (base : Nat) (bs : List Byte) (k : Fin 16) : (s.storeBytes base bs).getKey k = s.getKey k := by
  simp [State.getKey]
@[simp] theorem State.storeBytes_pixel (base : Nat) (bs : List Byte) (px py : Nat) : (s.storeBytes base bs).pixel px py = s.pixel px py := by
  simp [State.pixel]

theorem State.memOk_storeBytes {base : Nat} (bs : List Byte) (hb : base + bs.length ≤ memSize)
    (h : s.MemOk) : (s.storeBytes base bs).MemOk := by
  induction bs generalizing s base with
  | nil => exact h
  | cons b bs ih =>
    simp only [List.length_cons] at hb
    exact ih _ (by omega) (s.memOk_storeByte (by omega) b h)

/-- What memory reads as after a store of bytes: each byte at its address, but for the font where
FONT_WRITE_POLICY is not `write`, and every other address as before (R54). -/
theorem State.byteAt_storeBytes {base : Nat} (bs : List Byte) (hb : base + bs.length ≤ memSize)
    (h : s.MemOk) (a : Nat) :
    (s.storeBytes base bs).byteAt a =
      if base ≤ a ∧ a < base + bs.length ∧ (0x050 ≤ a ∨ s.cfg.fontWrite = .write)
      then bs.getD (a - base) 0 else s.byteAt a := by
  induction bs generalizing s base with
  | nil =>
    simp [State.storeBytes]
    omega
  | cons b bs ih =>
    simp only [List.length_cons] at hb
    have hcfg : (s.storeByte base b).cfg = s.cfg :=
      (congrArg State.cfg (s.storeByte_frame base b)).symm
    rw [State.storeBytes, ih _ (by omega) (s.memOk_storeByte (by omega) b h),
      s.byteAt_storeByte h, hcfg]
    by_cases hab : a = base
    · subst hab
      simp
    · by_cases hle : base ≤ a
      · have e : a - base = (a - (base + 1)) + 1 := by omega
        have h1 : (base + 1 ≤ a) := by omega
        have h2 : (a < base + 1 + bs.length) = (a < base + (bs.length + 1)) := by
          rw [eq_iff_iff]; omega
        simp [hab, hle, e, h1, h2]
      · have h1 : ¬ base + 1 ≤ a := by omega
        simp [hab, hle, h1]

/-! ## Register transfers -/

theorem State.setRegs_frame (k : Nat) (bs : List Byte) :
    { s with v := (s.setRegs k bs).v } = s.setRegs k bs := by
  induction bs generalizing s k with
  | nil => rfl
  | cons b bs ih =>
    show { s with v := ((s.setV (BitVec.ofNat 4 k) b).setRegs (k + 1) bs).v } = _
    conv_rhs => rw [State.setRegs, ← ih (s.setV (BitVec.ofNat 4 k) b) (k + 1)]
    rfl

@[simp] theorem State.setRegs_mem (k : Nat) (bs : List Byte) : (s.setRegs k bs).mem = s.mem :=
  (congrArg State.mem (s.setRegs_frame k bs)).symm
@[simp] theorem State.setRegs_i (k : Nat) (bs : List Byte) : (s.setRegs k bs).i = s.i :=
  (congrArg State.i (s.setRegs_frame k bs)).symm
@[simp] theorem State.setRegs_pc (k : Nat) (bs : List Byte) : (s.setRegs k bs).pc = s.pc :=
  (congrArg State.pc (s.setRegs_frame k bs)).symm
@[simp] theorem State.setRegs_stack (k : Nat) (bs : List Byte) : (s.setRegs k bs).stack = s.stack :=
  (congrArg State.stack (s.setRegs_frame k bs)).symm
@[simp] theorem State.setRegs_sp (k : Nat) (bs : List Byte) : (s.setRegs k bs).sp = s.sp :=
  (congrArg State.sp (s.setRegs_frame k bs)).symm
@[simp] theorem State.setRegs_dt (k : Nat) (bs : List Byte) : (s.setRegs k bs).dt = s.dt :=
  (congrArg State.dt (s.setRegs_frame k bs)).symm
@[simp] theorem State.setRegs_st (k : Nat) (bs : List Byte) : (s.setRegs k bs).st = s.st :=
  (congrArg State.st (s.setRegs_frame k bs)).symm
@[simp] theorem State.setRegs_key (k : Nat) (bs : List Byte) : (s.setRegs k bs).key = s.key :=
  (congrArg State.key (s.setRegs_frame k bs)).symm
@[simp] theorem State.setRegs_fb (k : Nat) (bs : List Byte) : (s.setRegs k bs).fb = s.fb :=
  (congrArg State.fb (s.setRegs_frame k bs)).symm
@[simp] theorem State.setRegs_redraw (k : Nat) (bs : List Byte) : (s.setRegs k bs).redraw = s.redraw :=
  (congrArg State.redraw (s.setRegs_frame k bs)).symm
@[simp] theorem State.setRegs_status (k : Nat) (bs : List Byte) : (s.setRegs k bs).status = s.status :=
  (congrArg State.status (s.setRegs_frame k bs)).symm
@[simp] theorem State.setRegs_cfg (k : Nat) (bs : List Byte) : (s.setRegs k bs).cfg = s.cfg :=
  (congrArg State.cfg (s.setRegs_frame k bs)).symm
@[simp] theorem State.setRegs_randIn (k : Nat) (bs : List Byte) : (s.setRegs k bs).randIn = s.randIn :=
  (congrArg State.randIn (s.setRegs_frame k bs)).symm
@[simp] theorem State.setRegs_randCount (k : Nat) (bs : List Byte) : (s.setRegs k bs).randCount = s.randCount :=
  (congrArg State.randCount (s.setRegs_frame k bs)).symm
@[simp] theorem State.setRegs_pending (k : Nat) (bs : List Byte) : (s.setRegs k bs).pending = s.pending :=
  (congrArg State.pending (s.setRegs_frame k bs)).symm
@[simp] theorem State.setRegs_events (k : Nat) (bs : List Byte) : (s.setRegs k bs).events = s.events :=
  (congrArg State.events (s.setRegs_frame k bs)).symm
@[simp] theorem State.setRegs_byteAt (k : Nat) (bs : List Byte) (a : Nat) : (s.setRegs k bs).byteAt a = s.byteAt a := by
  simp [State.byteAt]
@[simp] theorem State.setRegs_getKey (k : Nat) (bs : List Byte) (j : Fin 16) : (s.setRegs k bs).getKey j = s.getKey j := by
  simp [State.getKey]
@[simp] theorem State.setRegs_pixel (k : Nat) (bs : List Byte) (px py : Nat) : (s.setRegs k bs).pixel px py = s.pixel px py := by
  simp [State.pixel]

theorem State.getV_setRegs {k : Nat} (bs : List Byte) (hk : k + bs.length ≤ 16) (y : Nibble) :
    (s.setRegs k bs).getV y =
      if k ≤ y.toNat ∧ y.toNat < k + bs.length then bs.getD (y.toNat - k) 0 else s.getV y := by
  induction bs generalizing s k with
  | nil => simp [State.setRegs]
  | cons b bs ih =>
    simp only [List.length_cons] at hk
    rw [State.setRegs, ih _ (by omega), State.getV_setV]
    have hy : y = BitVec.ofNat 4 k ↔ y.toNat = k := by
      constructor
      · rintro rfl; simp; omega
      · intro h; apply BitVec.eq_of_toNat_eq; simp; omega
    by_cases hyk : y.toNat = k
    · have h1 : ¬ k + 1 ≤ y.toNat := by omega
      simp [hy, hyk]
    · by_cases hle : k ≤ y.toNat
      · have e : y.toNat - k = (y.toNat - (k + 1)) + 1 := by omega
        have h1 : k + 1 ≤ y.toNat := by omega
        have h2 : (y.toNat < k + 1 + bs.length) = (y.toNat < k + (bs.length + 1)) := by
          rw [eq_iff_iff]; omega
        simp [hy, hyk, hle, e, h1, h2]
      · have h1 : ¬ k + 1 ≤ y.toNat := by omega
        simp [hy, hyk, hle, h1]

@[simp] theorem State.length_firstRegs (n : Nat) : (s.firstRegs n).length = n := by
  simp [State.firstRegs]

theorem State.getD_firstRegs {n k : Nat} (h : k < n) :
    (s.firstRegs n).getD k 0 = s.getV (BitVec.ofNat 4 k) := by
  simp [State.firstRegs, h]

@[simp] theorem State.length_bytesAt (base n : Nat) : (s.bytesAt base n).length = n := by
  simp [State.bytesAt]

theorem State.getD_bytesAt {base n k : Nat} (h : k < n) :
    (s.bytesAt base n).getD k 0 = s.byteAt (base + k) := by
  simp [State.bytesAt, h]

@[simp] theorem length_bcdDigits (b : Byte) : (bcdDigits b).length = 3 := rfl

/-! ## The flag write (R153) -/

theorem getV_writeResultAndFlag (x y : Nibble) (r f : Byte) :
    (writeResultAndFlag s x r f).getV y =
      if y = x ∧ (x ≠ vf ∨ s.cfg.flagOrder = .resultLast) then r
      else if y = vf then f else s.getV y := by
  unfold writeResultAndFlag
  cases h : s.cfg.flagOrder <;> simp only [State.getV_setV] <;> grind

theorem writeResultAndFlag_frame (x : Nibble) (r f : Byte) :
    { s with v := (writeResultAndFlag s x r f).v } = writeResultAndFlag s x r f := by
  unfold writeResultAndFlag
  split <;> rfl

@[simp] theorem writeResultAndFlag_mem (x : Nibble) (r f : Byte) : (writeResultAndFlag s x r f).mem = s.mem :=
  (congrArg State.mem (writeResultAndFlag_frame s x r f)).symm
@[simp] theorem writeResultAndFlag_i (x : Nibble) (r f : Byte) : (writeResultAndFlag s x r f).i = s.i :=
  (congrArg State.i (writeResultAndFlag_frame s x r f)).symm
@[simp] theorem writeResultAndFlag_pc (x : Nibble) (r f : Byte) : (writeResultAndFlag s x r f).pc = s.pc :=
  (congrArg State.pc (writeResultAndFlag_frame s x r f)).symm
@[simp] theorem writeResultAndFlag_stack (x : Nibble) (r f : Byte) : (writeResultAndFlag s x r f).stack = s.stack :=
  (congrArg State.stack (writeResultAndFlag_frame s x r f)).symm
@[simp] theorem writeResultAndFlag_sp (x : Nibble) (r f : Byte) : (writeResultAndFlag s x r f).sp = s.sp :=
  (congrArg State.sp (writeResultAndFlag_frame s x r f)).symm
@[simp] theorem writeResultAndFlag_dt (x : Nibble) (r f : Byte) : (writeResultAndFlag s x r f).dt = s.dt :=
  (congrArg State.dt (writeResultAndFlag_frame s x r f)).symm
@[simp] theorem writeResultAndFlag_st (x : Nibble) (r f : Byte) : (writeResultAndFlag s x r f).st = s.st :=
  (congrArg State.st (writeResultAndFlag_frame s x r f)).symm
@[simp] theorem writeResultAndFlag_key (x : Nibble) (r f : Byte) : (writeResultAndFlag s x r f).key = s.key :=
  (congrArg State.key (writeResultAndFlag_frame s x r f)).symm
@[simp] theorem writeResultAndFlag_fb (x : Nibble) (r f : Byte) : (writeResultAndFlag s x r f).fb = s.fb :=
  (congrArg State.fb (writeResultAndFlag_frame s x r f)).symm
@[simp] theorem writeResultAndFlag_redraw (x : Nibble) (r f : Byte) : (writeResultAndFlag s x r f).redraw = s.redraw :=
  (congrArg State.redraw (writeResultAndFlag_frame s x r f)).symm
@[simp] theorem writeResultAndFlag_status (x : Nibble) (r f : Byte) : (writeResultAndFlag s x r f).status = s.status :=
  (congrArg State.status (writeResultAndFlag_frame s x r f)).symm
@[simp] theorem writeResultAndFlag_cfg (x : Nibble) (r f : Byte) : (writeResultAndFlag s x r f).cfg = s.cfg :=
  (congrArg State.cfg (writeResultAndFlag_frame s x r f)).symm
@[simp] theorem writeResultAndFlag_randIn (x : Nibble) (r f : Byte) : (writeResultAndFlag s x r f).randIn = s.randIn :=
  (congrArg State.randIn (writeResultAndFlag_frame s x r f)).symm
@[simp] theorem writeResultAndFlag_randCount (x : Nibble) (r f : Byte) : (writeResultAndFlag s x r f).randCount = s.randCount :=
  (congrArg State.randCount (writeResultAndFlag_frame s x r f)).symm
@[simp] theorem writeResultAndFlag_pending (x : Nibble) (r f : Byte) : (writeResultAndFlag s x r f).pending = s.pending :=
  (congrArg State.pending (writeResultAndFlag_frame s x r f)).symm
@[simp] theorem writeResultAndFlag_events (x : Nibble) (r f : Byte) : (writeResultAndFlag s x r f).events = s.events :=
  (congrArg State.events (writeResultAndFlag_frame s x r f)).symm
@[simp] theorem writeResultAndFlag_byteAt (x : Nibble) (r f : Byte) (a : Nat) : (writeResultAndFlag s x r f).byteAt a = s.byteAt a := by
  simp [State.byteAt]
@[simp] theorem writeResultAndFlag_getKey (x : Nibble) (r f : Byte) (k : Fin 16) : (writeResultAndFlag s x r f).getKey k = s.getKey k := by
  simp [State.getKey]
@[simp] theorem writeResultAndFlag_pixel (x : Nibble) (r f : Byte) (px py : Nat) : (writeResultAndFlag s x r f).pixel px py = s.pixel px py := by
  simp [State.pixel]

end Sys2Proof.Machine
end

