-- ==== Sys2Proof/Laws/Display.lean ====
section
/-! SUPPORT. The draw loop, pixel by pixel (44_display.md R191 to R196): which pixels a sprite
toggles, and what the loop leaves. -/

namespace Sys2Proof.Machine

/-- Toggling a pixel of the grid inverts it and leaves every other pixel alone. -/
theorem Rows.pixel_toggle (fb : Rows) {px py : Nat} (hx : px < 64) (hy : py < 32) (qx qy : Nat) :
    Rows.pixel (fb.toggle px py) qx qy =
      if qx = px ∧ qy = py then !Rows.pixel fb qx qy else Rows.pixel fb qx qy := by
  unfold Rows.pixel Rows.toggle
  simp only [hy, dite_true]
  split
  · rename_i hq
    rw [Vector.getElem_set]
    by_cases h : py = qy
    · subst h
      rw [if_pos rfl, BitVec.getLsbD_xor, BitVec.getLsbD_shiftLeft]
      by_cases hqx : qx = px
      · subst hqx; simp [hx]
      · have hne : ¬ (qx - px = 0 ∧ ¬ qx < px) := by omega
        by_cases hlt : qx < px
        · simp [hqx, hlt]
        · have h0 : ¬ qx - px = 0 := by omega
          simp [hqx, hlt, h0]
    · have h' : ¬ qy = py := fun e => h e.symm
      simp [h, h']
  · rename_i hq
    have : ¬ qy = py := by omega
    simp [this]

theorem ite_eq_some_iff {α : Type} {c : Prop} [Decidable c] {a b : α} :
    (if c then some a else none) = some b ↔ c ∧ a = b := by
  split <;> simp_all

/-- The pixels that one sprite byte toggles. -/
theorem mem_rowTargets {px0 py qx qy : Nat} {row : Byte} :
    (qx, qy) ∈ rowTargets px0 py row ↔
      qy = py ∧ qx < 64 ∧ qy < 32 ∧ px0 ≤ qx ∧ qx < px0 + 8 ∧
        row.getLsbD (7 - (qx - px0)) = true := by
  rw [rowTargets, List.mem_filterMap]
  constructor
  · rintro ⟨c, hc, h⟩
    rw [List.mem_range] at hc
    obtain ⟨⟨hb, hx, hy⟩, he⟩ := ite_eq_some_iff.1 h
    unfold fbWidth at hx
    unfold fbHeight at hy
    cases he
    refine ⟨rfl, hx, hy, by omega, by omega, ?_⟩
    have e : px0 + c - px0 = c := by omega
    rw [e]; exact hb
  · rintro ⟨rfl, hx, hy, h1, h2, hb⟩
    have e : px0 + (qx - px0) = qx := by omega
    refine ⟨qx - px0, List.mem_range.2 (by omega), ite_eq_some_iff.2 ⟨⟨hb, ?_, hy⟩, by rw [e]⟩⟩
    rw [e]
    exact hx

/-- The pixels that a sprite toggles. -/
theorem mem_spriteTargets {px0 py0 qx qy : Nat} {rows : List Byte} :
    (qx, qy) ∈ spriteTargets px0 py0 rows ↔
      qx < 64 ∧ qy < 32 ∧ px0 ≤ qx ∧ qx < px0 + 8 ∧ py0 ≤ qy ∧ qy < py0 + rows.length ∧
        (rows.getD (qy - py0) 0).getLsbD (7 - (qx - px0)) = true := by
  induction rows generalizing py0 with
  | nil =>
    simp [spriteTargets]
  | cons row rows ih =>
    rw [spriteTargets, List.mem_append, mem_rowTargets, ih, List.length_cons]
    by_cases h : qy = py0
    · subst h
      have : ¬ qy + 1 ≤ qy := by omega
      simp [this]
    · by_cases hle : py0 ≤ qy
      · have e : qy - py0 = (qy - (py0 + 1)) + 1 := by omega
        have h1 : py0 + 1 ≤ qy := by omega
        have h2 : (qy < py0 + 1 + rows.length) = (qy < py0 + (rows.length + 1)) := by
          rw [eq_iff_iff]; omega
        simp [h, hle, e, h1, h2]
      · have h1 : ¬ py0 + 1 ≤ qy := by omega
        simp [h, hle, h1]

theorem nodup_rowTargets (px0 py : Nat) (row : Byte) : (rowTargets px0 py row).Nodup := by
  unfold rowTargets
  refine List.Nodup.filterMap ?_ List.nodup_range
  intro c c' p h h'
  simp only [Option.mem_def, ite_eq_some_iff] at h h'
  obtain ⟨-, h⟩ := h
  obtain ⟨-, h'⟩ := h'
  rw [← h'] at h
  simp at h
  exact h

theorem nodup_spriteTargets (px0 py0 : Nat) (rows : List Byte) :
    (spriteTargets px0 py0 rows).Nodup := by
  induction rows generalizing py0 with
  | nil => exact List.nodup_nil
  | cons row rows ih =>
    rw [spriteTargets, List.nodup_append]
    refine ⟨nodup_rowTargets _ _ _, ih _, ?_⟩
    rintro ⟨a, b⟩ h1 ⟨a', b'⟩ h2 heq
    cases heq
    have := (mem_rowTargets.1 h1).1
    have := (mem_spriteTargets.1 h2).2.2.2.2.1
    omega

/-- The draw loop over distinct pixels of the grid: it inverts exactly those, and its collision is
that some of them was lit. -/
theorem foldl_drawPixel (ps : List (Nat × Nat)) (hnd : ps.Nodup)
    (hin : ∀ p ∈ ps, p.1 < 64 ∧ p.2 < 32) (fb : Rows) (hit : Bool) :
    (∀ qx qy, Rows.pixel (ps.foldl drawPixel (fb, hit)).1 qx qy =
      if (qx, qy) ∈ ps then !Rows.pixel fb qx qy else Rows.pixel fb qx qy) ∧
    ((ps.foldl drawPixel (fb, hit)).2 = true ↔
      hit = true ∨ ∃ p ∈ ps, Rows.pixel fb p.1 p.2 = true) := by
  induction ps generalizing fb hit with
  | nil => simp
  | cons p ps ih =>
    obtain ⟨px, py⟩ := p
    obtain ⟨hnotin, hnd'⟩ := List.nodup_cons.1 hnd
    obtain ⟨hx, hy⟩ := hin (px, py) (by simp)
    obtain ⟨ih1, ih2⟩ := ih hnd' (fun p hp => hin p (by simp [hp])) (fb.toggle px py)
      (hit || Rows.pixel fb px py)
    have htog := Rows.pixel_toggle fb hx hy
    simp only [List.foldl_cons, drawPixel]
    refine ⟨fun qx qy => ?_, ?_⟩
    · rw [ih1, htog]
      by_cases h : qx = px ∧ qy = py
      · obtain ⟨rfl, rfl⟩ := h
        simp [hnotin]
      · have h' : ¬ ((qx, qy) = (px, py)) := by simpa using h
        simp [h]
    · rw [ih2]
      have hstay : ∀ q ∈ ps, Rows.pixel (fb.toggle px py) q.1 q.2 = Rows.pixel fb q.1 q.2 := by
        rintro ⟨qx, qy⟩ hq
        rw [htog, if_neg]
        rintro ⟨rfl, rfl⟩
        exact hnotin hq
      simp only [Bool.or_eq_true, List.mem_cons, exists_eq_or_imp, or_assoc]
      refine or_congr_right (or_congr_right (exists_congr fun q => ?_))
      refine and_congr_right fun hq => ?_
      rw [hstay q hq]

/-- What a draw leaves on the framebuffer. -/
theorem pixel_drawSprite (fb : Rows) (px0 py0 : Nat) (rows : List Byte) (qx qy : Nat) :
    Rows.pixel (drawSprite fb px0 py0 rows).1 qx qy =
      if (qx, qy) ∈ spriteTargets px0 py0 rows then !Rows.pixel fb qx qy
      else Rows.pixel fb qx qy :=
  (foldl_drawPixel _ (nodup_spriteTargets _ _ _)
    (fun _ hp => ⟨(mem_spriteTargets.1 hp).1, (mem_spriteTargets.1 hp).2.1⟩) fb false).1 qx qy

/-- When a draw collides. -/
theorem collision_drawSprite (fb : Rows) (px0 py0 : Nat) (rows : List Byte) :
    (drawSprite fb px0 py0 rows).2 = true ↔
      ∃ p ∈ spriteTargets px0 py0 rows, Rows.pixel fb p.1 p.2 = true := by
  have h := (foldl_drawPixel _ (nodup_spriteTargets px0 py0 rows)
    (fun _ hp => ⟨(mem_spriteTargets.1 hp).1, (mem_spriteTargets.1 hp).2.1⟩) fb false).2
  simp only [Bool.false_eq_true, false_or] at h
  exact h

/-- A clear screen has no lit pixel. -/
@[simp] theorem pixel_clearRows (qx qy : Nat) : Rows.pixel clearRows qx qy = false := by
  simp [Rows.pixel, clearRows]

end Sys2Proof.Machine
end

