-- ==== Sys2Proof/Laws/Encoding.lean ====
section
/-! SUPPORT. The fields of an encoded word, and a word put together again from its fields. The
decoder and the encoder are reasoned about through these. -/

namespace Sys2Proof

/-! ## Words and fields as numbers -/

theorem toNat_mkNNN (c : Nibble) (nnn : Addr) :
    (mkNNN c nnn).toNat = c.toNat * 4096 + nnn.toNat := by
  show (c ++ nnn).toNat = _
  rw [BitVec.toNat_append, ← Nat.shiftLeft_add_eq_or_of_lt nnn.isLt, Nat.shiftLeft_eq]

theorem toNat_mkXNN (c x : Nibble) (nn : Byte) :
    (mkXNN c x nn).toNat = c.toNat * 4096 + x.toNat * 256 + nn.toNat := by
  show ((c ++ x) ++ nn).toNat = _
  rw [BitVec.toNat_append, ← Nat.shiftLeft_add_eq_or_of_lt nn.isLt, Nat.shiftLeft_eq,
    BitVec.toNat_append, ← Nat.shiftLeft_add_eq_or_of_lt x.isLt, Nat.shiftLeft_eq]
  omega

theorem toNat_mkXYN (c x y n : Nibble) :
    (mkXYN c x y n).toNat = c.toNat * 4096 + x.toNat * 256 + y.toNat * 16 + n.toNat := by
  show (((c ++ x) ++ y) ++ n).toNat = _
  rw [BitVec.toNat_append, ← Nat.shiftLeft_add_eq_or_of_lt n.isLt, Nat.shiftLeft_eq,
    BitVec.toNat_append, ← Nat.shiftLeft_add_eq_or_of_lt y.isLt, Nat.shiftLeft_eq,
    BitVec.toNat_append, ← Nat.shiftLeft_add_eq_or_of_lt x.isLt, Nat.shiftLeft_eq]
  omega

theorem toNat_classOf (w : Word) : (classOf w).toNat = w.toNat / 4096 := by
  simp [classOf, BitVec.extractLsb'_toNat, Nat.shiftRight_eq_div_pow]; omega
theorem toNat_xOf (w : Word) : (xOf w).toNat = w.toNat / 256 % 16 := by
  simp [xOf, BitVec.extractLsb'_toNat, Nat.shiftRight_eq_div_pow]
theorem toNat_yOf (w : Word) : (yOf w).toNat = w.toNat / 16 % 16 := by
  simp [yOf, BitVec.extractLsb'_toNat, Nat.shiftRight_eq_div_pow]
theorem toNat_nOf (w : Word) : (nOf w).toNat = w.toNat % 16 := by
  simp [nOf, BitVec.extractLsb'_toNat]
theorem toNat_nnOf (w : Word) : (nnOf w).toNat = w.toNat % 256 := by
  simp [nnOf, BitVec.extractLsb'_toNat]
theorem toNat_nnnOf (w : Word) : (nnnOf w).toNat = w.toNat % 4096 := by
  simp [nnnOf, BitVec.extractLsb'_toNat]

/-! ## Fields of the three word shapes -/

variable (c x y n : Nibble) (nn : Byte) (nnn : Addr)

@[simp] theorem classOf_mkNNN : classOf (mkNNN c nnn) = c := by
  apply BitVec.eq_of_toNat_eq; rw [toNat_classOf, toNat_mkNNN]; omega
@[simp] theorem xOf_mkNNN : xOf (mkNNN c nnn) = nnn.extractLsb' 8 4 := by
  apply BitVec.eq_of_toNat_eq
  rw [toNat_xOf, toNat_mkNNN]
  simp [BitVec.extractLsb'_toNat, Nat.shiftRight_eq_div_pow]; omega
@[simp] theorem nnOf_mkNNN : nnOf (mkNNN c nnn) = nnn.setWidth 8 := by
  apply BitVec.eq_of_toNat_eq; rw [toNat_nnOf, toNat_mkNNN]; simp; omega
@[simp] theorem nnnOf_mkNNN : nnnOf (mkNNN c nnn) = nnn := by
  apply BitVec.eq_of_toNat_eq; rw [toNat_nnnOf, toNat_mkNNN]; omega

@[simp] theorem classOf_mkXNN : classOf (mkXNN c x nn) = c := by
  apply BitVec.eq_of_toNat_eq; rw [toNat_classOf, toNat_mkXNN]; omega
@[simp] theorem xOf_mkXNN : xOf (mkXNN c x nn) = x := by
  apply BitVec.eq_of_toNat_eq; rw [toNat_xOf, toNat_mkXNN]; omega
@[simp] theorem nnOf_mkXNN : nnOf (mkXNN c x nn) = nn := by
  apply BitVec.eq_of_toNat_eq; rw [toNat_nnOf, toNat_mkXNN]; omega

@[simp] theorem classOf_mkXYN : classOf (mkXYN c x y n) = c := by
  apply BitVec.eq_of_toNat_eq; rw [toNat_classOf, toNat_mkXYN]; omega
@[simp] theorem xOf_mkXYN : xOf (mkXYN c x y n) = x := by
  apply BitVec.eq_of_toNat_eq; rw [toNat_xOf, toNat_mkXYN]; omega
@[simp] theorem yOf_mkXYN : yOf (mkXYN c x y n) = y := by
  apply BitVec.eq_of_toNat_eq; rw [toNat_yOf, toNat_mkXYN]; omega
@[simp] theorem nOf_mkXYN : nOf (mkXYN c x y n) = n := by
  apply BitVec.eq_of_toNat_eq; rw [toNat_nOf, toNat_mkXYN]; omega

/-! ## A word from its fields -/

@[simp] theorem mkNNN_fields (w : Word) : mkNNN (classOf w) (nnnOf w) = w := by
  apply BitVec.eq_of_toNat_eq; rw [toNat_mkNNN, toNat_classOf, toNat_nnnOf]; omega
@[simp] theorem mkXNN_fields (w : Word) : mkXNN (classOf w) (xOf w) (nnOf w) = w := by
  apply BitVec.eq_of_toNat_eq; rw [toNat_mkXNN, toNat_classOf, toNat_xOf, toNat_nnOf]; omega
@[simp] theorem mkXYN_fields (w : Word) : mkXYN (classOf w) (xOf w) (yOf w) (nOf w) = w := by
  apply BitVec.eq_of_toNat_eq
  rw [toNat_mkXYN, toNat_classOf, toNat_xOf, toNat_yOf, toNat_nOf]; omega

/-! ## Bytes -/

theorem toNat_wordOfBytes (b0 b1 : Byte) :
    (wordOfBytes b0 b1).toNat = b0.toNat * 256 + b1.toNat := by
  show (b0 ++ b1).toNat = _
  rw [BitVec.toNat_append, ← Nat.shiftLeft_add_eq_or_of_lt b1.isLt, Nat.shiftLeft_eq]

@[simp] theorem wordOfBytes_bytes (w : Word) : wordOfBytes (highByte w) (lowByte w) = w := by
  apply BitVec.eq_of_toNat_eq
  rw [toNat_wordOfBytes]
  simp [highByte, lowByte, BitVec.extractLsb'_toNat, Nat.shiftRight_eq_div_pow]; omega

/-! ## What each class of the decoder answers: the word's own instruction, or the word -/

theorem classOf_eq_of_toNat {w : Word} {k : Nat} (h : (classOf w).toNat = k) :
    classOf w = BitVec.ofNat 4 k := by
  apply BitVec.eq_of_toNat_eq
  have := (classOf w).isLt
  simp; omega

theorem decodeClass0_instr {c : Config} {w : Word} {i : Instr} (hc : classOf w = 0x0#4)
    (h : decodeClass0 c w = .instr i) : encode i = w ∧ i.wf c = true := by
  have e1 := mkNNN_fields w
  have e2 := mkXNN_fields w
  rw [hc] at e1 e2
  have x1 : xOf w = (nnnOf w).extractLsb' 8 4 := by conv_lhs => rw [← e1, xOf_mkNNN]
  have x2 : nnOf w = (nnnOf w).setWidth 8 := by conv_lhs => rw [← e1, nnOf_mkNNN]
  simp only [decodeClass0, decodeSys] at h
  repeat' split at h
  · rename_i hn; cases h; simp only [hn.1] at e2; exact ⟨e2, hn.2⟩
  · rename_i hn; cases h; simp only [hn.1] at e2; exact ⟨e2, hn.2⟩
  · rename_i h1 h2 _ h3
    cases h
    refine ⟨e1, ?_⟩
    simp only [x1, x2] at h1 h2
    simp only [Instr.wf, sysOk, isClsOrRet, h3]
    simp at h1 h2 ⊢
    grind
  · cases h

theorem decodeClass8_instr {w : Word} {i : Instr} (hc : classOf w = 0x8#4)
    (h : decodeClass8 w = .instr i) : encode i = w ∧ ∀ c, i.wf c = true := by
  have e3 := mkXYN_fields w
  rw [hc] at e3
  simp only [decodeClass8] at h
  repeat' split at h
  all_goals cases h
  all_goals (rename_i hn; rw [hn] at e3; exact ⟨e3, fun _ => rfl⟩)

theorem decodeClassE_instr {w : Word} {i : Instr} (hc : classOf w = 0xE#4)
    (h : decodeClassE w = .instr i) : encode i = w ∧ ∀ c, i.wf c = true := by
  have e2 := mkXNN_fields w
  rw [hc] at e2
  simp only [decodeClassE] at h
  repeat' split at h
  all_goals cases h
  all_goals (rename_i hn; rw [hn] at e2; exact ⟨e2, fun _ => rfl⟩)

theorem decodeClassF_instr {w : Word} {i : Instr} (hc : classOf w = 0xF#4)
    (h : decodeClassF w = .instr i) : encode i = w ∧ ∀ c, i.wf c = true := by
  have e2 := mkXNN_fields w
  rw [hc] at e2
  simp only [decodeClassF] at h
  repeat' split at h
  all_goals cases h
  all_goals (rename_i hn; rw [hn] at e2; exact ⟨e2, fun _ => rfl⟩)

theorem ifIgnoredOk_instr {c : Config} {u : Nibble} {w : Word} {i j : Instr}
    (h : ifIgnoredOk c u j w = .instr i) : i = j ∧ ignoredBitsOk c u = true := by
  simp only [ifIgnoredOk] at h
  split at h
  · rename_i hn; cases h; exact ⟨rfl, hn⟩
  · cases h

/-- A word that is rejected is rejected as itself (R76, R231). -/
theorem decodeWord_unknown {c : Config} {w u : Word} (h : decodeWord c w = .unknown u) :
    u = w := by
  unfold decodeWord decodeClass0 decodeClass8 decodeClassE decodeClassF ifIgnoredOk decodeSys at h
  repeat' split at h
  all_goals (cases h; try rfl)

end Sys2Proof
end

