-- ==== Sys2Proof/Laws/Cycle.lean ====
section
/-! SUPPORT. What an instruction and a Cycle can do, said once: the inversion lemmas that the
whole-machine claims cite instead of unfolding the meanings. -/

namespace Sys2Proof.Machine

variable {s t : State} {i : Instr}

/-! ## What every instruction leaves alone -/

/-- The fields outside an instruction's reach unless it raises a Fatal condition. -/
structure Quiet (s t : State) : Prop where
  status    : t.status = s.status
  events    : t.events = s.events
  cfg       : t.cfg = s.cfg
  randIn    : t.randIn = s.randIn
  randCount : t.randCount = s.randCount
  pending   : t.pending = s.pending

theorem Quiet.checked {f : Option FatalCause} {u : State} (hu : Quiet s u)
    (h : checked f i s u = .next t) :
    (∃ c, t = s.raiseFatal c (some (encode i))) ∨ Quiet s t := by
  cases f with
  | some c => cases h; exact .inl ⟨c, rfl⟩
  | none   => cases h; exact .inr hu

/-- Every instruction either raises a Fatal condition on its own word, in which case it has no
other effect (R107), or leaves the status, the events and the model's own fields alone. -/
theorem exec_cases (h : exec i s = .next t) :
    (∃ c, t = s.raiseFatal c (some (encode i))) ∨ Quiet s t := by
  cases i <;> simp only [exec] at h
  case cls u =>
    unfold execCls at h
    split at h <;> (cases h; exact .inr ⟨rfl, rfl, rfl, rfl, rfl, rfl⟩)
  case ret u =>
    unfold execRet at h
    split at h
    · cases h; exact .inl ⟨_, rfl⟩
    · rename_i a u' hp
      unfold State.pop at hp
      split at hp <;> cases hp
      cases h
      exact .inr ⟨rfl, rfl, rfl, rfl, rfl, rfl⟩
  case call nnn =>
    unfold execCall at h
    split at h
    · cases h; exact .inl ⟨_, rfl⟩
    · rename_i u' hp
      unfold State.push at hp
      split at hp <;> cases hp
      cases h
      exact .inr ⟨rfl, rfl, rfl, rfl, rfl, rfl⟩
  case drw x y n => exact Quiet.checked (by constructor <;> simp) h
  case skp x =>
    unfold execSkp at h
    repeat' split at h
    all_goals first
      | (cases h; exact .inl ⟨_, rfl⟩)
      | (cases h; exact .inr ⟨rfl, rfl, rfl, rfl, rfl, rfl⟩)
  case sknp x =>
    unfold execSknp at h
    repeat' split at h
    all_goals first
      | (cases h; exact .inl ⟨_, rfl⟩)
      | (cases h; exact .inr ⟨rfl, rfl, rfl, rfl, rfl, rfl⟩)
  case ldVxK x =>
    unfold execLdVxK at h
    split at h <;> (cases h; exact .inr ⟨rfl, rfl, rfl, rfl, rfl, rfl⟩)
  case ldBVx x => exact Quiet.checked (by constructor <;> simp) h
  case ldMemVx x => exact Quiet.checked (by constructor <;> simp) h
  case ldVxMem x => exact Quiet.checked (by constructor <;> simp) h
  case addReg x y => cases h; exact .inr (by constructor <;> simp)
  case sub x y => cases h; exact .inr (by constructor <;> simp)
  case shr x y => cases h; exact .inr (by constructor <;> simp)
  case subn x y => cases h; exact .inr (by constructor <;> simp)
  case shl x y => cases h; exact .inr (by constructor <;> simp)
  all_goals (cases h; exact .inr ⟨rfl, rfl, rfl, rfl, rfl, rfl⟩)

/-- Every instruction answers a next state. -/
theorem exec_next (i : Instr) (s : State) : ∃ t, exec i s = .next t := by
  cases i <;> simp only [exec]
  case cls u => unfold execCls; split <;> exact ⟨_, rfl⟩
  case ret u => unfold execRet; split <;> exact ⟨_, rfl⟩
  case call nnn => unfold execCall; split <;> exact ⟨_, rfl⟩
  case drw x y n => exact ⟨_, checked_eq _ _ _ _⟩
  case skp x => unfold execSkp; split <;> exact ⟨_, rfl⟩
  case sknp x => unfold execSknp; split <;> exact ⟨_, rfl⟩
  case ldVxK x => unfold execLdVxK; split <;> exact ⟨_, rfl⟩
  case ldBVx x => exact ⟨_, checked_eq _ _ _ _⟩
  case ldMemVx x => exact ⟨_, checked_eq _ _ _ _⟩
  case ldVxMem x => exact ⟨_, checked_eq _ _ _ _⟩
  all_goals exact ⟨_, rfl⟩

/-- The only instructions that write memory (20_memory.md R58). -/
theorem exec_mem (h : exec i s = .next t) :
    t.mem = s.mem ∨
    (∃ x, i = .ldBVx x ∧ indexAddr s + 3 ≤ memSize ∧
      t = (s.storeBytes (indexAddr s) (bcdDigits (s.getV x))).advance) ∨
    (∃ x, i = .ldMemVx x ∧ indexAddr s + regCount x ≤ memSize ∧
      t = (s.storeBytes (indexAddr s) (s.firstRegs (regCount x))).advance) := by
  cases i <;> simp only [exec] at h
  case cls u =>
    unfold execCls at h
    split at h <;> (cases h; exact .inl rfl)
  case ret u =>
    unfold execRet at h
    split at h
    · cases h; exact .inl rfl
    · rename_i a u' hp
      unfold State.pop at hp
      split at hp <;> cases hp
      cases h
      exact .inl rfl
  case call nnn =>
    unfold execCall at h
    split at h
    · cases h; exact .inl rfl
    · rename_i u' hp
      unfold State.push at hp
      split at hp <;> cases hp
      cases h
      exact .inl rfl
  case drw x y n =>
    unfold execDrw at h
    rw [checked_eq] at h
    cases h
    split <;> exact .inl rfl
  case skp x =>
    unfold execSkp at h
    repeat' split at h
    all_goals (cases h; exact .inl rfl)
  case sknp x =>
    unfold execSknp at h
    repeat' split at h
    all_goals (cases h; exact .inl rfl)
  case ldVxK x =>
    unfold execLdVxK at h
    split at h <;> (cases h; exact .inl rfl)
  case ldBVx x =>
    unfold execLdBVx at h
    rw [firstFault_writeCheck _ _ _ (by decide)] at h
    repeat' split at h
    · cases h; exact .inl rfl
    · rename_i hle
      cases h
      exact .inr (.inl ⟨x, rfl, hle, rfl⟩)
    · cases h; exact .inl rfl
  case ldMemVx x =>
    unfold execLdMemVx at h
    rw [firstFault_writeCheck _ _ _ (show 0 < regCount x from Nat.succ_pos _)] at h
    repeat' split at h
    · cases h; exact .inl rfl
    · rename_i hle
      cases h
      exact .inr (.inr ⟨x, rfl, hle, rfl⟩)
    · cases h; exact .inl rfl
  case ldVxMem x =>
    unfold execLdVxMem at h
    rw [checked_eq] at h
    cases h
    split
    · exact .inl rfl
    · exact .inl (by simp)
  case addReg x y => cases h; exact .inl (by simp)
  case sub x y => cases h; exact .inl (by simp)
  case shr x y => cases h; exact .inl (by simp)
  case subn x y => cases h; exact .inl (by simp)
  case shl x y => cases h; exact .inl (by simp)
  all_goals (cases h; exact .inl rfl)

theorem exec_cfg (h : exec i s = .next t) : t.cfg = s.cfg := by
  rcases exec_cases h with ⟨c, rfl⟩ | hq
  · rfl
  · exact hq.cfg

/-- Every instruction keeps memory in its canonical form. -/
theorem exec_memOk (hs : s.MemOk) (h : exec i s = .next t) : t.MemOk := by
  rcases exec_mem h with hm | ⟨x, -, hle, rfl⟩ | ⟨x, -, hle, rfl⟩
  · unfold State.MemOk
    rw [hm, exec_cfg h]
    exact hs
  · exact s.memOk_storeBytes _ (by simpa using hle) hs
  · exact s.memOk_storeBytes _ (by simpa using hle) hs

/-! ## The Cycle -/

theorem fetchFault_eq (s : State) :
    fetchFault s = if s.pc.toNat + 2 ≤ 0x1000 then none else some .addressOutOfRange := by
  unfold fetchFault
  rw [firstFault_readCheck]
  simp

/-- A Cycle of a block that is not running does nothing (R100). -/
theorem cycle_of_not_running (r : Option Byte) (h : s.status ≠ .running) :
    cycle r s = .next s := by
  unfold cycle
  split
  · rfl
  · rfl
  · contradiction

/-- A Cycle whose fetch faults halts the block and does nothing else (R102). -/
theorem cycle_of_fetchFault (r : Option Byte) (h : s.status = .running)
    (hpc : 0x1000 < s.pc.toNat + 2) :
    cycle r s = .next (s.raiseFatal .addressOutOfRange none) := by
  unfold cycle
  rw [h]
  simp only [fetchFault_eq, if_neg (Nat.not_le.2 hpc)]

/-- A Cycle whose fetch does not fault runs the word (R101). -/
theorem cycle_of_fetch (r : Option Byte) (h : s.status = .running)
    (hpc : s.pc.toNat + 2 ≤ 0x1000) :
    cycle r s = runWord r s (fetchWord s) := by
  unfold cycle
  rw [h]
  simp only [fetchFault_eq, if_pos hpc]

theorem runWord_of_unknown {r : Option Byte} {w u : Word}
    (h : decodeWord s.cfg w = .unknown u) :
    runWord r s w = .next (unknownOpcode u (beginCycle r s)) := by
  simp only [runWord, h]

theorem runWord_of_instr {r : Option Byte} {w : Word} (h : decodeWord s.cfg w = .instr i) :
    runWord r s w = endCycle s (exec i (beginCycle r s)) := by
  simp only [runWord, h]

/-- The end of a Cycle: the state the instruction left, or, after a Fatal condition, the state
before the Cycle with the new status and event (R107). -/
theorem endCycle_next (hrun : s.status = .running) (r : Option Byte)
    (h : exec i (beginCycle r s) = .next t) :
    (Quiet (beginCycle r s) t ∧ endCycle s (exec i (beginCycle r s)) = .next t) ∨
    (∃ c, endCycle s (exec i (beginCycle r s)) =
      .next (s.raiseFatal c (some (encode i)))) := by
  rcases exec_cases h with ⟨c, rfl⟩ | hq
  · exact .inr ⟨c, by rw [h]; rfl⟩
  · refine .inl ⟨hq, ?_⟩
    have hst : t.status = .running := by rw [hq.status]; exact hrun
    rw [h]
    simp [endCycle, rollback, hst]

/-- What a Cycle can do: nothing, a fetch fault, an unknown opcode, or one instruction, which
completes or raises a Fatal condition (R109). -/
theorem cycle_cases {r : Option Byte} (h : cycle r s = .next t) :
    (s.status ≠ .running ∧ t = s) ∨
    (s.status = .running ∧ 0x1000 < s.pc.toNat + 2 ∧ t = s.raiseFatal .addressOutOfRange none) ∨
    (s.status = .running ∧ s.pc.toNat + 2 ≤ 0x1000 ∧
      decodeWord s.cfg (fetchWord s) = .unknown (fetchWord s) ∧
      t = unknownOpcode (fetchWord s) (beginCycle r s)) ∨
    (∃ i, s.status = .running ∧ s.pc.toNat + 2 ≤ 0x1000 ∧
      decodeWord s.cfg (fetchWord s) = .instr i ∧
      ((Quiet (beginCycle r s) t ∧ exec i (beginCycle r s) = .next t) ∨
        ∃ c, t = s.raiseFatal c (some (encode i)))) := by
  by_cases hrun : s.status = .running
  · by_cases hpc : s.pc.toNat + 2 ≤ 0x1000
    · rw [cycle_of_fetch r hrun hpc] at h
      cases hd : decodeWord s.cfg (fetchWord s) with
      | unknown u =>
        have hu := decodeWord_unknown hd
        subst hu
        rw [runWord_of_unknown hd] at h
        cases h
        exact .inr (.inr (.inl ⟨hrun, hpc, rfl, rfl⟩))
      | instr i =>
        rw [runWord_of_instr hd] at h
        obtain ⟨t', ht'⟩ := exec_next i (beginCycle r s)
        refine .inr (.inr (.inr ⟨i, hrun, hpc, rfl, ?_⟩))
        rcases endCycle_next hrun r ht' with ⟨hq, he⟩ | ⟨c, he⟩
        · rw [he] at h; cases h; exact .inl ⟨hq, ht'⟩
        · rw [he] at h; cases h; exact .inr ⟨c, rfl⟩
    · rw [cycle_of_fetchFault r hrun (by omega)] at h
      cases h
      exact .inr (.inl ⟨hrun, by omega, rfl⟩)
  · rw [cycle_of_not_running r hrun] at h
    cases h
    exact .inl ⟨hrun, rfl⟩

/-- A Cycle answers a next state. -/
theorem cycle_next (r : Option Byte) (s : State) : ∃ t, cycle r s = .next t := by
  by_cases hrun : s.status = .running
  · by_cases hpc : s.pc.toNat + 2 ≤ 0x1000
    · rw [cycle_of_fetch r hrun hpc]
      cases hd : decodeWord s.cfg (fetchWord s) with
      | unknown u => exact ⟨_, runWord_of_unknown hd⟩
      | instr i =>
        rw [runWord_of_instr hd]
        obtain ⟨t, ht⟩ := exec_next i (beginCycle r s)
        rw [ht]
        exact ⟨_, rfl⟩
    · exact ⟨_, cycle_of_fetchFault r hrun (by omega)⟩
  · exact ⟨_, cycle_of_not_running r hrun⟩

/-! ## The step -/

theorem step_of_nil (h : s.pending = []) : step s = cycle none s := by
  simp only [step, nextTransaction, h]

theorem step_of_cons {x : Transaction} {xs : List Transaction} (h : s.pending = x :: xs) :
    step s = perform x (takePending s) := by
  simp only [step, nextTransaction, h]

end Sys2Proof.Machine
end

