-- ==== Sys2Proof/Laws/Effects.lean ====
section
/-! SUPPORT. Which fields each instruction can change, and to what: one case analysis over the
instructions, whose parts the whole-machine claims cite. -/

namespace Sys2Proof.Machine

/-- The fields that only certain instructions change, each with those instructions. -/
structure Effects (i : Instr) (s t : State) : Prop where
  dt     : t.dt = s.dt ∨ ∃ x, i = .ldDtVx x ∧ t.dt = s.getV x
  st     : t.st = s.st ∨ ∃ x, i = .ldStVx x ∧ t.st = s.getV x
  index  : t.i = s.i ∨ (∃ n, i = .ldI n) ∨ (∃ x, i = .addIVx x) ∨ ∃ x, i = .ldFVx x
  fb     : t.fb = s.fb ∨ (∃ x y n, i = .drw x y n) ∨ ∃ u, i = .cls u
  stack  : (t.sp = s.sp ∧ t.stack = s.stack) ∨
    (∃ nnn, i = .call nnn ∧ t.sp.val = s.sp.val + 1 ∧
      ∀ k : Fin 16, t.stack[k] = if k.val = s.sp.val then s.pc else s.stack[k]) ∨
    (∃ u, i = .ret u ∧ t.sp.val + 1 = s.sp.val ∧ t.stack = s.stack)
  keys   : ∀ k, t.getKey k ≠ s.getKey k → s.getKey k = true ∧ t.getKey k = false ∧
    ((∃ x, i = .skp x ∧ (s.getV x).toNat = k.val) ∨
      (∃ x, i = .sknp x ∧ (s.getV x).toNat = k.val) ∨
      ∃ x, i = .ldVxK x ∧ t.getV x = BitVec.ofNat 8 k.val)
  regs   : ∀ k, t.getV k ≠ s.getV k → WritesReg i k
  redraw : t.status = .running → s.redraw = false →
    (t.redraw = true ↔ (∃ x y n, i = .drw x y n) ∨ ∃ u, i = .cls u ∧ s.cfg.clsSetsRedraw = true)

theorem keyOperand_eq_some {b : Byte} {k : Fin 16} (h : keyOperand b = some k) :
    b.toNat = k.val := by
  unfold keyOperand at h
  split at h <;> cases h
  rfl

/-- What every instruction can change. -/
theorem exec_effects {i : Instr} {s t : State} (h : exec i s = .next t) : Effects i s t := by
  cases i <;> simp only [exec] at h
  case cls u =>
    unfold execCls at h
    split at h <;> (cases h; constructor <;> simp_all)
  case ret u =>
    unfold execRet at h
    split at h
    · cases h; constructor <;> simp_all
    · rename_i a u' hp
      unfold State.pop at hp
      split at hp <;> cases hp
      cases h
      exact ⟨.inl rfl, .inl rfl, .inl rfl, .inl rfl, .inr (.inr ⟨u, rfl, by simp; omega, rfl⟩),
        fun _ hk => absurd rfl hk, fun _ hk => absurd rfl hk, fun _ h => by simp_all⟩
  case call nnn =>
    unfold execCall at h
    split at h
    · cases h; constructor <;> simp_all
    · rename_i u' hp
      unfold State.push at hp
      split at hp <;> cases hp
      cases h
      exact ⟨.inl rfl, .inl rfl, .inl rfl, .inl rfl,
        .inr (.inl ⟨nnn, rfl, by simp, fun k => by simp [Vector.getElem_set, eq_comm]⟩),
        fun _ hk => absurd rfl hk, fun _ hk => absurd rfl hk, fun _ h => by simp_all⟩
  case drw x y n =>
    rw [execDrw, checked_eq] at h
    cases h
    split <;> constructor <;> simp_all [State.getV_setV, WritesReg, vf]
  case skp x =>
    unfold execSkp at h
    split at h
    · cases h; constructor <;> simp_all
    · rename_i k hk
      have := keyOperand_eq_some hk
      cases h
      split <;> constructor <;> simp_all [State.getKey_setKey]
  case sknp x =>
    unfold execSknp at h
    split at h
    · cases h; constructor <;> simp_all
    · rename_i k hk
      have := keyOperand_eq_some hk
      cases h
      split <;> constructor <;> simp_all [State.getKey_setKey]
  case ldVxK x =>
    unfold execLdVxK at h
    split at h
    · rename_i k hk
      have := s.firstKey_eq_some.1 hk
      cases h
      constructor <;> simp_all [State.getKey_setKey, State.getV_setV, WritesReg]
    · cases h; constructor <;> simp_all
  case ldBVx x =>
    rw [execLdBVx, checked_eq] at h
    cases h
    split <;> constructor <;> simp_all
  case ldMemVx x =>
    rw [execLdMemVx, checked_eq] at h
    cases h
    split <;> constructor <;> simp_all
  case ldVxMem x =>
    rw [execLdVxMem, checked_eq] at h
    cases h
    split
    · constructor <;> simp_all
    · constructor <;> simp_all [WritesReg]
      intro k
      rw [s.getV_setRegs _ (by simp [regCount]; omega)]
      simp [regCount]
      grind
  all_goals
    cases h
    constructor <;> simp_all [State.getV_setV, WritesReg, getV_writeResultAndFlag, vf] <;> grind

end Sys2Proof.Machine
end

