-- ==== Sys2Proof/Laws/PerInstr.lean ====
section
/-! SUPPORT. The per-instruction family MatchesRow: the word of a well-formed instruction matches
its row of the opcode map, `word & mask = match` (30_encoding.md R75, R80). -/

namespace Sys2Proof

/-! ## Masks over the three word shapes -/

variable (c x y n : Nibble) (nn : Byte) (nnn : Addr)

theorem getLsbD_mkNNN (k : Nat) :
    (mkNNN c nnn).getLsbD k = if k < 12 then nnn.getLsbD k else c.getLsbD (k - 12) := by
  show (c ++ nnn).getLsbD k = _
  rw [BitVec.getLsbD_append]

theorem getLsbD_mkXNN (k : Nat) :
    (mkXNN c x nn).getLsbD k =
      if k < 8 then nn.getLsbD k else if k < 12 then x.getLsbD (k - 8)
      else c.getLsbD (k - 12) := by
  show ((c ++ x) ++ nn).getLsbD k = _
  rw [BitVec.getLsbD_append, BitVec.getLsbD_append]
  grind

theorem getLsbD_mkXYN (k : Nat) :
    (mkXYN c x y n).getLsbD k =
      if k < 4 then n.getLsbD k else if k < 8 then y.getLsbD (k - 4)
      else if k < 12 then x.getLsbD (k - 8) else c.getLsbD (k - 12) := by
  show (((c ++ x) ++ y) ++ n).getLsbD k = _
  rw [BitVec.getLsbD_append, BitVec.getLsbD_append, BitVec.getLsbD_append]
  grind

theorem mkNNN_and_F000 : mkNNN c nnn &&& 0xF000#16 = mkNNN c 0 := by
  apply BitVec.eq_of_getLsbD_eq
  intro k hk
  rw [BitVec.getLsbD_and, getLsbD_mkNNN, getLsbD_mkNNN]
  interval_cases k <;> simp

theorem mkXNN_and_F000 : mkXNN c x nn &&& 0xF000#16 = mkXNN c 0 0 := by
  apply BitVec.eq_of_getLsbD_eq
  intro k hk
  rw [BitVec.getLsbD_and, getLsbD_mkXNN, getLsbD_mkXNN]
  interval_cases k <;> simp

theorem mkXNN_and_F0FF : mkXNN c x nn &&& 0xF0FF#16 = mkXNN c 0 nn := by
  apply BitVec.eq_of_getLsbD_eq
  intro k hk
  rw [BitVec.getLsbD_and, getLsbD_mkXNN, getLsbD_mkXNN]
  interval_cases k <;> simp

theorem mkXYN_and_F000 : mkXYN c x y n &&& 0xF000#16 = mkXYN c 0 0 0 := by
  apply BitVec.eq_of_getLsbD_eq
  intro k hk
  rw [BitVec.getLsbD_and, getLsbD_mkXYN, getLsbD_mkXYN]
  interval_cases k <;> simp

theorem mkXYN_and_F00F : mkXYN c x y n &&& 0xF00F#16 = mkXYN c 0 0 n := by
  apply BitVec.eq_of_getLsbD_eq
  intro k hk
  rw [BitVec.getLsbD_and, getLsbD_mkXYN, getLsbD_mkXYN]
  interval_cases k <;> simp

theorem and_FFFF (w : Word) : w &&& 0xFFFF#16 = w := BitVec.and_allOnes

theorem ignored_zero {cfg : Config} {u : Nibble} (hs : cfg.strictDispatch = true)
    (h : ignoredBitsOk cfg u = true) : u = 0 := by
  simpa [ignoredBitsOk, hs] using h

end Sys2Proof

namespace Sys2Proof.Laws

/-! ## The family -/

/-- The instruction's word matches its row, under every setting that admits it. -/
def MatchesRow.Statement (i : Instr) : Prop :=
  ∀ c : Config, i.wf c = true → encode i &&& rowMask c.strictDispatch i = rowMatch i


theorem MatchesRow.cls (u : Nibble) : MatchesRow.Statement (.cls u) := by
  intro c h
  cases hs : c.strictDispatch
  · exact mkXNN_and_F0FF _ _ _
  · have hu : u = 0 := ignored_zero hs h
    subst hu
    exact and_FFFF _

theorem MatchesRow.ret (u : Nibble) : MatchesRow.Statement (.ret u) := by
  intro c h
  cases hs : c.strictDispatch
  · exact mkXNN_and_F0FF _ _ _
  · have hu : u = 0 := ignored_zero hs h
    subst hu
    exact and_FFFF _

theorem MatchesRow.jp (nnn : Addr) : MatchesRow.Statement (.jp nnn) :=
  fun _ _ => mkNNN_and_F000 _ _

theorem MatchesRow.call (nnn : Addr) : MatchesRow.Statement (.call nnn) :=
  fun _ _ => mkNNN_and_F000 _ _

theorem MatchesRow.seImm (x : Nibble) (nn : Byte) : MatchesRow.Statement (.seImm x nn) :=
  fun _ _ => mkXNN_and_F000 _ _ _

theorem MatchesRow.sneImm (x : Nibble) (nn : Byte) : MatchesRow.Statement (.sneImm x nn) :=
  fun _ _ => mkXNN_and_F000 _ _ _

theorem MatchesRow.seReg (x y u : Nibble) : MatchesRow.Statement (.seReg x y u) := by
  intro c h
  cases hs : c.strictDispatch
  · exact mkXYN_and_F000 _ _ _ _
  · have hu : u = 0 := ignored_zero hs h
    subst hu
    exact mkXYN_and_F00F _ _ _ _

theorem MatchesRow.ldImm (x : Nibble) (nn : Byte) : MatchesRow.Statement (.ldImm x nn) :=
  fun _ _ => mkXNN_and_F000 _ _ _

theorem MatchesRow.addImm (x : Nibble) (nn : Byte) : MatchesRow.Statement (.addImm x nn) :=
  fun _ _ => mkXNN_and_F000 _ _ _

theorem MatchesRow.ldReg (x y : Nibble) : MatchesRow.Statement (.ldReg x y) :=
  fun _ _ => mkXYN_and_F00F _ _ _ _

theorem MatchesRow.orReg (x y : Nibble) : MatchesRow.Statement (.orReg x y) :=
  fun _ _ => mkXYN_and_F00F _ _ _ _

theorem MatchesRow.andReg (x y : Nibble) : MatchesRow.Statement (.andReg x y) :=
  fun _ _ => mkXYN_and_F00F _ _ _ _

theorem MatchesRow.xorReg (x y : Nibble) : MatchesRow.Statement (.xorReg x y) :=
  fun _ _ => mkXYN_and_F00F _ _ _ _

theorem MatchesRow.addReg (x y : Nibble) : MatchesRow.Statement (.addReg x y) :=
  fun _ _ => mkXYN_and_F00F _ _ _ _

theorem MatchesRow.sub (x y : Nibble) : MatchesRow.Statement (.sub x y) :=
  fun _ _ => mkXYN_and_F00F _ _ _ _

theorem MatchesRow.shr (x y : Nibble) : MatchesRow.Statement (.shr x y) :=
  fun _ _ => mkXYN_and_F00F _ _ _ _

theorem MatchesRow.subn (x y : Nibble) : MatchesRow.Statement (.subn x y) :=
  fun _ _ => mkXYN_and_F00F _ _ _ _

theorem MatchesRow.shl (x y : Nibble) : MatchesRow.Statement (.shl x y) :=
  fun _ _ => mkXYN_and_F00F _ _ _ _

theorem MatchesRow.sneReg (x y u : Nibble) : MatchesRow.Statement (.sneReg x y u) := by
  intro c h
  cases hs : c.strictDispatch
  · exact mkXYN_and_F000 _ _ _ _
  · have hu : u = 0 := ignored_zero hs h
    subst hu
    exact mkXYN_and_F00F _ _ _ _

theorem MatchesRow.ldI (nnn : Addr) : MatchesRow.Statement (.ldI nnn) :=
  fun _ _ => mkNNN_and_F000 _ _

theorem MatchesRow.jpV0 (nnn : Addr) : MatchesRow.Statement (.jpV0 nnn) :=
  fun _ _ => mkNNN_and_F000 _ _

theorem MatchesRow.rnd (x : Nibble) (nn : Byte) : MatchesRow.Statement (.rnd x nn) :=
  fun _ _ => mkXNN_and_F000 _ _ _

theorem MatchesRow.drw (x y n : Nibble) : MatchesRow.Statement (.drw x y n) :=
  fun _ _ => mkXYN_and_F000 _ _ _ _

theorem MatchesRow.skp (x : Nibble) : MatchesRow.Statement (.skp x) :=
  fun _ _ => mkXNN_and_F0FF _ _ _

theorem MatchesRow.sknp (x : Nibble) : MatchesRow.Statement (.sknp x) :=
  fun _ _ => mkXNN_and_F0FF _ _ _

theorem MatchesRow.ldVxDt (x : Nibble) : MatchesRow.Statement (.ldVxDt x) :=
  fun _ _ => mkXNN_and_F0FF _ _ _

theorem MatchesRow.ldVxK (x : Nibble) : MatchesRow.Statement (.ldVxK x) :=
  fun _ _ => mkXNN_and_F0FF _ _ _

theorem MatchesRow.ldDtVx (x : Nibble) : MatchesRow.Statement (.ldDtVx x) :=
  fun _ _ => mkXNN_and_F0FF _ _ _

theorem MatchesRow.ldStVx (x : Nibble) : MatchesRow.Statement (.ldStVx x) :=
  fun _ _ => mkXNN_and_F0FF _ _ _

theorem MatchesRow.addIVx (x : Nibble) : MatchesRow.Statement (.addIVx x) :=
  fun _ _ => mkXNN_and_F0FF _ _ _

theorem MatchesRow.ldFVx (x : Nibble) : MatchesRow.Statement (.ldFVx x) :=
  fun _ _ => mkXNN_and_F0FF _ _ _

theorem MatchesRow.ldBVx (x : Nibble) : MatchesRow.Statement (.ldBVx x) :=
  fun _ _ => mkXNN_and_F0FF _ _ _

theorem MatchesRow.ldMemVx (x : Nibble) : MatchesRow.Statement (.ldMemVx x) :=
  fun _ _ => mkXNN_and_F0FF _ _ _

theorem MatchesRow.ldVxMem (x : Nibble) : MatchesRow.Statement (.ldVxMem x) :=
  fun _ _ => mkXNN_and_F0FF _ _ _

theorem MatchesRow.sys (nnn : Addr) : MatchesRow.Statement (.sys nnn) :=
  fun _ _ => mkNNN_and_F000 _ _

end Sys2Proof.Laws
end

