-- ==== Sys2Proof/Laws/Session.lean ====
section
/-! SUPPORT. What a step does by the kind of the next transaction, and what Tick and Start do: the
inversion lemmas for claims about `step`. -/

namespace Sys2Proof.Machine

variable {s t : State} {r : Option Byte}

/-! ## The next transaction -/

/-- The word at PC is the word that a Cycle fetches (30_encoding.md R70). -/
theorem State.wordAtPc_eq (s : State) : s.WordAtPc = fetchWord s := by
  apply BitVec.eq_of_toNat_eq
  unfold State.WordAtPc fetchWord
  rw [toNat_wordOfBytes]
  have := (s.byteAt s.pc.toNat).isLt
  have := (s.byteAt (s.pc.toNat + 1)).isLt
  simp
  omega

theorem step_of_nextCycle (h : s.NextCycle r) : step s = cycle r (takePending s) := by
  rcases h with ⟨h, rfl⟩ | ⟨b, ts, h, rfl⟩
  · rw [step_of_nil h]
    unfold takePending
    rw [h]
    cases s
    simp_all
  · rw [step_of_cons h]
    rfl

theorem step_of_nextIs {x : Transaction} (h : s.NextIs x) : step s = perform x (takePending s) := by
  unfold State.NextIs at h
  cases hp : s.pending with
  | nil => rw [hp] at h; cases h
  | cons y ys => rw [hp] at h; cases h; exact step_of_cons hp

/-- The next transaction is a Cycle, or a pending one that is not. -/
theorem State.next_cases (s : State) :
    (∃ r, s.NextCycle r) ∨ ∃ x, s.NextIs x ∧ ∀ b, x ≠ .cycle b := by
  cases h : s.pending with
  | nil => exact .inl ⟨none, .inl ⟨h, rfl⟩⟩
  | cons x xs =>
    cases x with
    | cycle b => exact .inl ⟨some b, .inr ⟨b, xs, h, rfl⟩⟩
    | _ => exact .inr ⟨_, by rw [State.NextIs, h]; rfl, by simp⟩

/-! ## What a step that is a Cycle can do -/

/-- Outside a completed instruction a Cycle changes only the status, the events, PC, the redraw
flag and the model's own fields. -/
theorem step_cycle_cases (hc : s.NextCycle r) (h : step s = .next t) :
    (¬ s.Running ∧ t = takePending s) ∨
    (s.Running ∧ 0xFFF < s.pc.toNat + 1 ∧
      t = (takePending s).raiseFatal .addressOutOfRange none) ∨
    (s.Running ∧ s.pc.toNat + 1 ≤ 0xFFF ∧
      decodeWord s.cfg (fetchWord s) = .unknown (fetchWord s) ∧
      t = unknownOpcode (fetchWord s) (beginCycle r (takePending s))) ∨
    (∃ i, s.AboutToRun r i ∧
      ((Quiet (beginCycle r (takePending s)) t ∧
          exec i (beginCycle r (takePending s)) = .next t) ∨
        ∃ c, t = (takePending s).raiseFatal c (some (encode i)))) := by
  rw [step_of_nextCycle hc] at h
  rcases cycle_cases h with ⟨h1, rfl⟩ | ⟨h1, h3, rfl⟩ | ⟨h1, h3, h4, rfl⟩ | ⟨i, h1, h3, h4, h5⟩
  · exact .inl ⟨h1, rfl⟩
  · exact .inr (.inl ⟨h1, by change _ < s.pc.toNat + 2 at h3; omega, rfl⟩)
  · exact .inr (.inr (.inl ⟨h1, by change s.pc.toNat + 2 ≤ _ at h3; omega, h4, rfl⟩))
  · refine .inr (.inr (.inr ⟨i, ⟨h1, hc, ?_, ?_⟩, h5⟩))
    · change s.pc.toNat + 2 ≤ _ at h3; omega
    · rw [State.wordAtPc_eq]; exact h4

/-! ## Tick and Start -/

theorem toNat_countDown (b : Byte) : (countDown b).toNat = b.toNat - 1 := by
  revert b
  decide

theorem tick_of_not_running (h : s.status ≠ .running) : tick s = s := by
  unfold tick
  split <;> first | rfl | contradiction

theorem tick_of_beep (h : s.status = .running) (hst : s.st = 1) :
    tick s = (((s.setDt (countDown s.dt)).setSt (countDown s.st)).emit .beep) := by
  unfold tick tickRunning
  rw [h]
  exact if_pos hst

theorem tick_of_quiet (h : s.status = .running) (hst : s.st ≠ 1) :
    tick s = (s.setDt (countDown s.dt)).setSt (countDown s.st) := by
  unfold tick tickRunning
  rw [h]
  exact if_neg hst

theorem start_of_fits {rom : List Byte} (h : rom.length ≤ romMax) :
    start (.bytes rom) s = newSession rom s :=
  if_neg (Nat.not_lt.2 h)

theorem start_of_too_long {rom : List Byte} (h : romMax < rom.length) :
    start (.bytes rom) s = loadError rom.length s :=
  if_pos h

/-- What memory reads as after a successful Start (10_state.md R41). -/
theorem byteAt_newSession {rom : List Byte} (h : rom.length ≤ romMax) (a : Nat) :
    (newSession rom s).byteAt a =
      if progBase ≤ a then rom.getD (a - progBase) (Memory.unlisted s.cfg.font a)
      else Memory.unlisted s.cfg.font a :=
  Memory.read_image _ _ _ (by simp only [romMax, progBase, memSize] at *; omega)

end Sys2Proof.Machine
end

