-- ==== Sys2Proof/Tests/Slice0.lean ====
section
/-! SUPPORT. The model's own tests: the checks of WellFormed, the decoder on words written out from
the patterns of R75, one step of each instruction against the vectors of spec/95_test_vectors.md
(their ids stand in the names), and, for every statement with hypotheses, a state that meets them
together. -/

namespace Sys2Proof.Tests

open Sys2Proof Sys2Proof.Machine

/-! ## Helpers -/

/-- What is seen of the next state; none for a fault or a refusal. -/
def see {α : Type} (o : Out) (f : State → α) : Option α :=
  match o with
  | .next t    => some (f t)
  | .fault _   => none
  | .refused _ => none

/-- The next state. -/
def after (o : Out) : State := (see o id).getD State.reset

/-- Right after Start, with some registers set. -/
def withRegs (ps : List (Nibble × Byte)) : State :=
  ps.foldl (fun s p => s.setV p.1 p.2) State.reset

/-- One step that runs this word. -/
def run (s : State) (w : Nat) : Out := step (s.withFetchWord 16 w)

/-- A store of bytes without checks. -/
def poke (s : State) (a : Nat) : List Byte → State
  | []      => s
  | b :: bs => poke (s.pokeByte a b) (a + 1) bs

def strictConfig : Config := { defaultConfig with strictDispatch := true }
def nopConfig : Config := { defaultConfig with sysPolicy := .nop }
def strictNop : Config := { strictConfig with sysPolicy := .nop }

/-! ## WellFormed: an ill-formed term for each check (R80, R81) -/

theorem test_wf_cls_strict : (Instr.cls 3).wf strictConfig = false := by decide
theorem test_wf_ret_strict : (Instr.ret 1).wf strictConfig = false := by decide
theorem test_wf_seReg_strict : (Instr.seReg 1 2 1).wf strictConfig = false := by decide
theorem test_wf_sneReg_strict : (Instr.sneReg 0xA 0xB 7).wf strictConfig = false := by decide
theorem test_wf_sys_unknown : (Instr.sys 0x123).wf defaultConfig = false := by decide
theorem test_wf_sys_cls : (Instr.sys 0x3E0).wf nopConfig = false := by decide
theorem test_wf_sys_ret : (Instr.sys 0x0EE).wf strictNop = false := by decide
theorem test_wf_accepts : (Instr.cls 3).wf defaultConfig = true ∧
    (Instr.sys 0x3E0).wf strictNop = true ∧ (Instr.sys 0x123).wf nopConfig = true := by decide

/-! ## The rates (R9): any positive one, whole or fractional, and no other -/

theorem test_rate_positive : ∀ r : Rate, r.perSecond ≠ 0 :=
  fun r h => absurd r.positive (by rw [h]; decide)

theorem test_rate_fractional :
    ∃ c : Config, c.cpuHz.perSecond = 1 / 2 ∧ c.tickHz.perSecond = 60 / 1001 * 1000 :=
  ⟨{ defaultConfig with cpuHz := ⟨1 / 2, by norm_num⟩, tickHz := ⟨60 / 1001 * 1000, by norm_num⟩ },
    rfl, rfl⟩

theorem test_rate_defaults :
    defaultConfig.cpuHz.perSecond = 60 ∧ defaultConfig.tickHz.perSecond = 60 := ⟨rfl, rfl⟩

/-! ## Decoding: words written out from the patterns of R75 -/

/-- The control-flow rows; 0x03E0 and 0x5121 carry ignored bits (R80). -/
theorem test_decode_control :
    decodeWord defaultConfig 0x03E0 = .instr (.cls 3) ∧
    decodeWord defaultConfig 0x00EE = .instr (.ret 0) ∧
    decodeWord defaultConfig 0x1234 = .instr (.jp 0x234) ∧
    decodeWord defaultConfig 0x2210 = .instr (.call 0x210) ∧
    decodeWord defaultConfig 0x3310 = .instr (.seImm 3 0x10) ∧
    decodeWord defaultConfig 0x4001 = .instr (.sneImm 0 0x01) ∧
    decodeWord defaultConfig 0x5121 = .instr (.seReg 1 2 1) ∧
    decodeWord defaultConfig 0x9AB7 = .instr (.sneReg 0xA 0xB 7) ∧
    decodeWord defaultConfig 0xB3FE = .instr (.jpV0 0x3FE) ∧
    decodeWord nopConfig 0x0123 = .instr (.sys 0x123) := by decide

theorem test_decode_alu :
    decodeWord defaultConfig 0x6FFE = .instr (.ldImm 0xF 0xFE) ∧
    decodeWord defaultConfig 0x7A01 = .instr (.addImm 0xA 0x01) ∧
    decodeWord defaultConfig 0x8AB0 = .instr (.ldReg 0xA 0xB) ∧
    decodeWord defaultConfig 0x8AB1 = .instr (.orReg 0xA 0xB) ∧
    decodeWord defaultConfig 0x8AB2 = .instr (.andReg 0xA 0xB) ∧
    decodeWord defaultConfig 0x8AB3 = .instr (.xorReg 0xA 0xB) ∧
    decodeWord defaultConfig 0x8AB4 = .instr (.addReg 0xA 0xB) ∧
    decodeWord defaultConfig 0x8AB5 = .instr (.sub 0xA 0xB) ∧
    decodeWord defaultConfig 0x8AB6 = .instr (.shr 0xA 0xB) ∧
    decodeWord defaultConfig 0x8AB7 = .instr (.subn 0xA 0xB) ∧
    decodeWord defaultConfig 0x801E = .instr (.shl 0 1) ∧
    decodeWord defaultConfig 0xC30F = .instr (.rnd 3 0x0F) := by decide

theorem test_decode_other :
    decodeWord defaultConfig 0xA301 = .instr (.ldI 0x301) ∧
    decodeWord defaultConfig 0xD125 = .instr (.drw 1 2 5) ∧
    decodeWord defaultConfig 0xE59E = .instr (.skp 5) ∧
    decodeWord defaultConfig 0xE1A1 = .instr (.sknp 1) ∧
    decodeWord defaultConfig 0xF307 = .instr (.ldVxDt 3) ∧
    decodeWord defaultConfig 0xF20A = .instr (.ldVxK 2) ∧
    decodeWord defaultConfig 0xF415 = .instr (.ldDtVx 4) ∧
    decodeWord defaultConfig 0xF518 = .instr (.ldStVx 5) ∧
    decodeWord defaultConfig 0xF61E = .instr (.addIVx 6) ∧
    decodeWord defaultConfig 0xF729 = .instr (.ldFVx 7) ∧
    decodeWord defaultConfig 0xF833 = .instr (.ldBVx 8) ∧
    decodeWord defaultConfig 0xF955 = .instr (.ldMemVx 9) ∧
    decodeWord defaultConfig 0xF465 = .instr (.ldVxMem 4) := by decide

/-- The Unknown words of section 2.1 of the vectors, and the strict ones (R80). -/
theorem test_decode_unknown :
    [0x0000, 0x0123, 0x8008, 0x800F, 0xE19F, 0xF0FF].map (decodeWord defaultConfig) =
      [0x0000, 0x0123, 0x8008, 0x800F, 0xE19F, 0xF0FF].map Verdict.unknown ∧
    [0x03E0, 0x5121, 0x9AB7].map (decodeWord strictConfig) =
      [0x03E0, 0x5121, 0x9AB7].map Verdict.unknown ∧
    decodeWord strictNop 0x03E0 = .instr (.sys 0x3E0) := by decide

/-- The bytes of a word stand big-endian, and the rest of the bytes is left (R56, R70, R83). -/
theorem test_decode_bytes :
    decode defaultConfig [0x60, 0x0A, 0xFF] = .verdict (.instr (.ldImm 0 0x0A)) [0xFF] ∧
    decode defaultConfig [0x60] = .truncated [0x60] := by decide

/-! ## The Cycle (section 2.2) -/

theorem test_cy1_cy2_unknown :
    see (step (State.reset.setRedraw true)) (fun t => (t.redraw, t.pc, t.status, t.events)) =
      some (false, 0x200, .running, [.unknownOpcode 0x200 0x0000]) ∧
    see (step { State.reset with cfg := { defaultConfig with unknownPcStep := .two } })
      (fun t => t.pc) = some 0x202 := by decide

theorem test_cy3_lastWord :
    see (run (State.reset.setPc 0xFFE) 0x6011) (fun t => (t.getV 0, t.pc)) =
      some (0x11, 0x1000) := by decide

theorem test_cy5_fetchFault :
    see (step ((State.reset.setPc 0xFFF).setRedraw true))
      (fun t => (t.redraw, t.pc, t.status, t.events)) =
      some (true, 0xFFF, .halted .addressOutOfRange, [.fatal .addressOutOfRange 0xFFF none]) := by
  decide

theorem test_cy6_oddPc :
    see (run (State.reset.setPc 0x201) 0x6122) (fun t => (t.getV 1, t.pc)) =
      some (0x22, 0x203) := by decide

theorem test_cy7_cy8_stopped :
    see (step (State.reset.setStatus (.halted .stackOverflow))) id =
      some (State.reset.setStatus (.halted .stackOverflow)) ∧
    see (step powerOn) id = some powerOn := by decide

/-- The interface that the host runs: a word is placed and is the next one executed. -/
theorem test_core_step :
    see (Sys2Proof.core.step (State.reset.withFetchWord 16 0x600A)) (fun t => t.getV 0) =
      some 0x0A ∧ decodeTableWord 16 0x0000 = some (.sys 0) := by decide

/-! ## Control flow (section 2.3) -/

theorem test_cf1_jp : see (run State.reset 0x1234) (fun t => t.pc) = some 0x234 := by decide

theorem test_cf3_call :
    see (run (State.reset.setPc 0x204) 0x2210)
      (fun t => (t.stack[0]'(by decide), t.sp.val, t.pc)) = some (0x204, 1, 0x210) := by decide

theorem test_cf4_ret :
    see (run (after (run (State.reset.setPc 0x204) 0x2210)) 0x00EE)
      (fun t => (t.stack[0]'(by decide), t.sp.val, t.pc)) = some (0x204, 0, 0x206) := by decide

theorem test_cf5_retEmpty :
    see (run State.reset 0x00EE) (fun t => (t.status, t.pc, t.events)) =
      some (.halted .stackUnderflow, 0x200, [.fatal .stackUnderflow 0x200 (some 0x00EE)]) := by
  decide

theorem test_cf6_callFull :
    see (run { State.reset with sp := 16 } 0x2300) (fun t => (t.status, t.sp.val, t.pc)) =
      some (.halted .stackOverflow, 16, 0x200) := by decide

theorem test_cf8_cf9_seImm :
    see (run (withRegs [(3, 0x10)]) 0x3310) (fun t => t.pc) = some 0x204 ∧
    see (run (withRegs [(3, 0x11)]) 0x3310) (fun t => t.pc) = some 0x202 := by decide

theorem test_cf10_cf11_sneImm :
    see (run (withRegs [(0, 0)]) 0x4001) (fun t => t.pc) = some 0x204 ∧
    see (run (withRegs [(0, 1)]) 0x4001) (fun t => t.pc) = some 0x202 := by decide

theorem test_cf12_seReg :
    see (run (withRegs [(1, 7), (2, 7)]) 0x5120) (fun t => t.pc) = some 0x204 := by decide

theorem test_cf14_cf15_sneReg :
    see (run (withRegs [(1, 1), (2, 2)]) 0x9120) (fun t => t.pc) = some 0x204 ∧
    see (run (withRegs [(4, 9)]) 0x9440) (fun t => t.pc) = some 0x202 := by decide

theorem test_cf16_cf18_jpV0 :
    see (run (withRegs [(0, 0x04)]) 0xB300) (fun t => t.pc) = some 0x306 ∧
    see (run (withRegs [(0, 0xFF)]) 0xBFFF) (fun t => t.pc) = some 0x1100 := by decide

theorem test_cf20_skipPastEnd :
    see (run (State.reset.setPc 0xFFC) 0x3000) (fun t => t.pc) = some 0x1000 := by decide

/-- R81. -/
theorem test_sys :
    see (run State.reset 0x0123) (fun t => (t.pc, t.events)) = some (0x202, []) := by decide

/-! ## Register loads and the ALU (section 2.4) -/

theorem test_al1_ldImm : see (run State.reset 0x6AFF) (fun t => t.getV 0xA) = some 0xFF := by decide

theorem test_al2_al3_addImm :
    see (run (withRegs [(0xA, 0x02), (0xF, 0x55)]) 0x7AFF) (fun t => (t.getV 0xA, t.getV 0xF)) =
      some (0x01, 0x55) ∧
    see (run (withRegs [(0xF, 0xFF)]) 0x7F01) (fun t => t.getV 0xF) = some 0x00 := by decide

theorem test_al4_ldReg :
    see (run (withRegs [(1, 0x33)]) 0x8010) (fun t => (t.getV 0, t.getV 1)) =
      some (0x33, 0x33) := by decide

theorem test_al5_or :
    see (run (withRegs [(0, 0xF0), (1, 0x0F), (0xF, 7)]) 0x8011)
      (fun t => (t.getV 0, t.getV 0xF)) = some (0xFF, 7) := by decide

theorem test_al6_and :
    see (run (withRegs [(0, 0xF0), (1, 0x3C)]) 0x8012) (fun t => t.getV 0) = some 0x30 := by decide

theorem test_al7_xor :
    see (run (withRegs [(0, 0xFF), (1, 0x0F)]) 0x8013) (fun t => t.getV 0) = some 0xF0 := by decide

theorem test_al9_al10_addReg :
    see (run (withRegs [(0, 0xFF), (1, 0x01)]) 0x8014) (fun t => (t.getV 0, t.getV 0xF)) =
      some (0x00, 1) ∧
    see (run (withRegs [(0, 0x80), (1, 0x7F)]) 0x8014) (fun t => (t.getV 0, t.getV 0xF)) =
      some (0xFF, 0) := by decide

theorem test_al12_al13_sub :
    see (run (withRegs [(0, 0x00), (1, 0x01)]) 0x8015) (fun t => (t.getV 0, t.getV 0xF)) =
      some (0xFF, 0) ∧
    see (run (withRegs [(0, 0x01), (1, 0x01)]) 0x8015) (fun t => (t.getV 0, t.getV 0xF)) =
      some (0x00, 1) := by decide

theorem test_al14_al15_shr :
    see (run (withRegs [(0, 0x99), (1, 0x05)]) 0x8016) (fun t => (t.getV 0, t.getV 0xF)) =
      some (0x02, 1) ∧
    see (run (withRegs [(1, 0xFE)]) 0x8016) (fun t => (t.getV 0, t.getV 0xF)) =
      some (0x7F, 0) := by decide

theorem test_al16_al17_subn :
    see (run (withRegs [(0, 0x07), (1, 0x05)]) 0x8017) (fun t => (t.getV 0, t.getV 0xF)) =
      some (0xFE, 0) ∧
    see (run (withRegs [(0, 0x05), (1, 0x07)]) 0x8017) (fun t => (t.getV 0, t.getV 0xF)) =
      some (0x02, 1) := by decide

theorem test_al18_al19_shl :
    see (run (withRegs [(1, 0x81)]) 0x801E) (fun t => (t.getV 0, t.getV 0xF)) =
      some (0x02, 0x80) ∧
    see (run (withRegs [(1, 0x7F)]) 0x801E) (fun t => (t.getV 0, t.getV 0xF)) =
      some (0xFE, 0x00) := by decide

theorem test_al20_rnd :
    see (step { State.reset.withFetchWord 16 0xC30F with pending := [.cycle 0xA7] })
      (fun t => t.getV 3) = some 0x07 := by decide

/-- V-FO1, V-FO3 and V-FO5, under both settings of FLAG_ORDER. -/
theorem test_fo1_fo3_flagOrder :
    see (run (withRegs [(0xF, 0xFF), (1, 0x01)]) 0x8F14) (fun t => t.getV 0xF) = some 1 ∧
    see (run { withRegs [(0xF, 0xFF), (1, 0x01)] with
      cfg := { defaultConfig with flagOrder := .resultLast } } 0x8F14) (fun t => t.getV 0xF) =
      some 0x00 ∧
    see (run (withRegs [(0xF, 0x81)]) 0x8FFE) (fun t => t.getV 0xF) = some 0x80 ∧
    see (run { withRegs [(0xF, 0x81)] with
      cfg := { defaultConfig with flagOrder := .resultLast } } 0x8FFE) (fun t => t.getV 0xF) =
      some 0x02 ∧
    see (run (withRegs [(0xF, 0x03)]) 0x80F6) (fun t => (t.getV 0, t.getV 0xF)) =
      some (0x01, 1) := by decide

/-! ## Index and memory (section 2.5) -/

theorem test_im1_ldI : see (run State.reset 0xA300) (fun t => t.i) = some 0x300 := by decide

theorem test_im3_im4_addI :
    see (run ((withRegs [(2, 0x01)]).setI 0xFFFF) 0xF21E) (fun t => (t.i, t.getV 0xF)) =
      some (0x0000, 0) ∧
    see (run ((withRegs [(2, 0x01)]).setI 0x0FFF) 0xF21E) (fun t => (t.i, t.status)) =
      some (0x1000, .running) := by decide

theorem test_im5_im7_glyph :
    see (run (withRegs [(0, 0x0A)]) 0xF029) (fun t => t.i) = some 0x032 ∧
    see (run (withRegs [(0, 0xFF)]) 0xF029) (fun t => t.i) = some 0x4FB := by decide

theorem test_im8_bcd :
    see (run ((withRegs [(0, 0xFE)]).setI 0x300) 0xF033) (fun t => (t.bytesAt 0x300 3, t.i)) =
      some ([2, 5, 4], 0x300) := by decide

/-- V-IM11, V-IM12 and V-IM13. -/
theorem test_im11_im13_bcdChecks :
    see (run (State.reset.setI 0xFFE) 0xF033) (fun t => (t.status, t.pc)) =
      some (.halted .addressOutOfRange, 0x200) ∧
    see (run (State.reset.setI 0x04F) 0xF033) (fun t => (t.status, t.pc)) =
      some (.halted .fontWrite, 0x200) ∧
    see (run { (withRegs [(0, 123)]).setI 0x04F with
      cfg := { defaultConfig with fontWrite := .ignore } } 0xF033)
      (fun t => (t.bytesAt 0x04F 3, t.pc)) = some ([0x80, 2, 3], 0x202) := by decide

theorem test_im14_store :
    see (run ((withRegs [(0, 0x11), (1, 0x22), (2, 0x33), (3, 0x44)]).setI 0x400) 0xF255)
      (fun t => (t.bytesAt 0x400 4, t.i)) = some ([0x11, 0x22, 0x33, 0], 0x400) := by decide

theorem test_im16_storeFault :
    see (run (State.reset.setI 0xFF1) 0xFF55) (fun t => (t.status, t.byteAt 0xFF1)) =
      some (.halted .addressOutOfRange, 0) := by decide

theorem test_im17_loadFont : see (run State.reset 0xF065) (fun t => t.getV 0) = some 0xF0 := by decide

theorem test_im18_load :
    see (run ((poke (withRegs [(3, 9)]) 0x300 [2, 5, 4, 7]).setI 0x300) 0xF265)
      (fun t => (t.firstRegs 4, t.i)) = some ([2, 5, 4, 9], 0x300) := by decide

/-! ## Display (section 2.6) -/

/-- The lit pixels of the corner that the vectors draw in. -/
def lit (s : State) (px py w h : Nat) : List (Nat × Nat) :=
  (List.range h).flatMap fun r =>
    ((List.range w).filter fun c => s.pixel (px + c) (py + r)).map fun c => (px + c, py + r)

theorem test_dr1_drw :
    see (run State.reset 0xD015) (fun t => (lit t 0 0 9 6, t.getV 0xF, t.redraw)) =
      some ([(0, 0), (1, 0), (2, 0), (3, 0), (0, 1), (3, 1), (0, 2), (3, 2), (0, 3), (3, 3),
        (0, 4), (1, 4), (2, 4), (3, 4)], 0, true) := by decide

/-- V-DR3 and V-DR8: pixels past column 63 are skipped and do not wrap. -/
theorem test_dr3_dr8_clip :
    see (run (withRegs [(0, 62)]) 0xD011) (fun t => (lit t 60 0 4 2, lit t 0 0 4 2, t.getV 0xF)) =
      some ([(62, 0), (63, 0)], [], 0) ∧
    see (run ((withRegs [(0, 62)]).setFb (clearRows.toggle 63 0)) 0xD011)
      (fun t => (lit t 60 0 4 1, t.getV 0xF)) = some ([(62, 0)], 1) := by decide

theorem test_dr9_drwFault :
    see (run (State.reset.setI 0x1000) 0xD011) (fun t => (t.redraw, t.status)) =
      some (false, .halted .addressOutOfRange) := by decide

theorem test_dr10_cls :
    see (run ((State.reset.setFb (clearRows.toggle 63 31)).setRedraw true) 0x00E0)
      (fun t => (t.fb, t.redraw)) = some (clearRows, false) := by decide

theorem test_dr11_drwVf :
    see (run (withRegs [(0xF, 5)]) 0xDFF1) (fun t => (lit t 4 5 6 1, t.getV 0xF)) =
      some ([(5, 5), (6, 5), (7, 5), (8, 5)], 0) := by decide

/-! ## Keypad and timers (section 2.7) -/

theorem test_kt1_kt6_skp :
    see (run ((withRegs [(5, 0x0A)]).setKey 0xA true) 0xE59E) (fun t => (t.pc, t.getKey 0xA)) =
      some (0x204, false) ∧
    see (run (withRegs [(5, 0x10)]) 0xE59E) (fun t => (t.pc, t.status)) =
      some (0x200, .halted .keyIndexOutOfRange) := by decide

theorem test_kt4_kt5_sknp :
    see (run ((withRegs [(5, 0x0A)]).setKey 0xA true) 0xE5A1) (fun t => (t.pc, t.getKey 0xA)) =
      some (0x202, false) ∧
    see (run (withRegs [(5, 0x0A)]) 0xE5A1) (fun t => t.pc) = some 0x204 := by decide

theorem test_kt7_ldVxDt :
    see (run (State.reset.setDt 0x3C) 0xF307) (fun t => t.getV 3) = some 0x3C := by decide

theorem test_kt8_wait :
    see (run ((State.reset.setKey 3 true).setKey 7 true) 0xF20A)
      (fun t => (t.getV 2, t.getKey 3, t.getKey 7, t.pc)) = some (3, false, true, 0x202) := by decide

/-- The source's scenario S9. -/
theorem test_s9_waitBlocks :
    see (run State.reset 0xF30A) (fun t => (t.getV 3, t.pc, t.events)) = some (0, 0x200, []) := by
  decide

theorem test_kt10_ldDtVx :
    see (run (withRegs [(0, 0x3C)]) 0xF015) (fun t => t.dt) = some 0x3C := by decide

theorem test_kt11_ldStVx :
    see (run (State.reset.setSt 1) 0xF018) (fun t => (t.st, t.events)) = some (0, []) := by decide

/-- V-KT12 and S8. -/
theorem test_kt12_tick :
    see (perform .tick ((State.reset.setDt 5).setSt 1)) (fun t => (t.dt, t.st, t.events)) =
      some (4, 0, [.beep]) ∧
    see (perform .tick (State.reset.setSt 5)) (fun t => (t.dt, t.st, t.events)) =
      some (0, 4, []) := by decide

theorem test_kt15_keyWrite :
    see (perform (.keyWrite 4 true) (State.reset.setStatus (.halted .fontWrite)))
      (fun t => (t.getKey 4, t.status)) = some (true, .halted .fontWrite) := by decide

theorem test_kt16_tickHalted :
    see (perform .tick ((State.reset.setDt 9).setStatus (.halted .fontWrite))) (fun t => t.dt) =
      some 9 := by decide

/-! ## Sessions (section 2.8) -/

/-- V-ST3, from the source's S5. -/
theorem test_st3_loadError :
    see (perform (.start (.bytes (List.replicate 3584 0))) State.reset)
      (fun t => (t.status, t.events)) = some (.idle, [.loadError 3584]) := by
  rw [perform, start_of_too_long (by rw [List.length_replicate]; decide), List.length_replicate]
  decide

theorem test_st4_restart :
    see (perform (.start (.bytes [0x60, 0x0A])) ((withRegs [(3, 9)]).setStatus (.halted .fontWrite)))
      (fun t => (t.status, t.getV 3, t.bytesAt 0x200 3)) = some (.running, 0, [0x60, 0x0A, 0]) := by
  decide

theorem test_st5_stop :
    see (perform .stop State.reset) (fun t => (t.status, t.events)) = some (.idle, []) := by decide

/-! ## Witnesses: states that meet the hypotheses of each statement together -/

/-- Right after Start, with this word under PC. -/
def at' (w : Nat) : State := State.reset.withFetchWord 16 w

/-- A step answers the state that it answers. -/
theorem step_after (s : State) (h : (see (step s) id).isSome = true) :
    step s = .next (after (step s)) := by
  unfold after
  cases hs : step s <;> simp_all [see]

/-- The state before a step, and the step, for the statements about a Cycle of a running block. -/
theorem witness_cycle (s : State) (hp : s.pending = []) (h : (see (step s) id).isSome = true) :
    s.NextCycle none ∧ step s = .next (after (step s)) :=
  ⟨.inl ⟨hp, rfl⟩, step_after s h⟩

theorem witness_DecodeOfEncode : (Instr.sys 0x3E0).wf strictNop = true ∧
    (Instr.cls 0xF).wf defaultConfig = true ∧ (Instr.drw 0xF 0xF 0xF).wf strictNop = true := by
  decide

theorem witness_UnknownOpcodeSpace :
    defaultConfig.strictDispatch = false ∧ defaultConfig.sysPolicy = .unknown ∧
    [0x00EF, 0x8008, 0x8FFF, 0xE19F, 0xF066].all
      (fun w => decodeWord defaultConfig w = .unknown w) = true ∧
    [0x00E0, 0x0FEE, 0x800E, 0xEFA1, 0xF065].all
      (fun w => decodeWord defaultConfig w ≠ .unknown w) = true := by decide

theorem witness_StrictDispatchMasks :
    strictConfig.strictDispatch = true ∧
    ((0x01E0 : Word) &&& 0xF0FF = 0x00E0 ∧ (0x01E0 : Word) &&& 0x0F00 ≠ 0) ∧
    ((0x0FEE : Word) &&& 0xF0FF = 0x00EE ∧ (0x0FEE : Word) &&& 0x0F00 ≠ 0) ∧
    ((0x5001 : Word) &&& 0xF000 = 0x5000 ∧ (0x5001 : Word) &&& 0x000F ≠ 0) ∧
    ((0x9FFF : Word) &&& 0xF000 = 0x9000 ∧ (0x9FFF : Word) &&& 0x000F ≠ 0) := by decide

/-- 0x0FFF is a class-0 word that is neither CLS nor RET, under either policy. -/
theorem witness_SysOnlyAdvances :
    (0x0FFF : Word).toNat / 4096 = 0 ∧ defaultConfig.sysPolicy = .unknown ∧
    nopConfig.sysPolicy = .nop ∧
    (∀ u, decodeWord defaultConfig 0x0FFF ≠ .instr (.cls u)) ∧
    (∀ u, decodeWord defaultConfig 0x0FFF ≠ .instr (.ret u)) ∧
    (∀ u, decodeWord nopConfig 0x0FFF ≠ .instr (.cls u)) ∧
    (∀ u, decodeWord nopConfig 0x0FFF ≠ .instr (.ret u)) := by
  have h : decodeWord defaultConfig 0x0FFF = .unknown 0x0FFF := by decide
  have h' : decodeWord nopConfig 0x0FFF = .instr (.sys 0xFFF) := by decide
  rw [h, h']
  exact ⟨rfl, rfl, rfl, nofun, nofun, nofun, nofun⟩

/-- The state in which a Cycle executes the instruction. -/
def executing (s : State) : State := beginCycle none (takePending s)

/-- The instruction completes (0x600A) or raises a Fatal condition (0x00EE, the stack empty). -/
theorem witness_StepRunsDecodedInstruction :
    ((at' 0x600A).AboutToRun none (.ldImm 0 0x0A) ∧
      exec (.ldImm 0 0x0A) (executing (at' 0x600A)) =
        .next (after (exec (.ldImm 0 0x0A) (executing (at' 0x600A)))) ∧
      (after (exec (.ldImm 0 0x0A) (executing (at' 0x600A)))).Running) ∧
    ((at' 0x00EE).AboutToRun none (.ret 0) ∧
      exec (.ret 0) (executing (at' 0x00EE)) =
        .next (after (exec (.ret 0) (executing (at' 0x00EE)))) ∧
      (after (exec (.ret 0) (executing (at' 0x00EE)))).status = .halted .stackUnderflow) :=
  ⟨⟨⟨rfl, .inl ⟨rfl, rfl⟩, by decide, by decide⟩, rfl, by unfold State.Running; decide⟩,
    ⟨rfl, .inl ⟨rfl, rfl⟩, by decide, by decide⟩, rfl, by decide⟩

theorem witness_FetchFaultHalts :
    ((State.reset.setPc 0x0FFF).Running ∧ (State.reset.setPc 0x0FFF).NextCycle none ∧
      0x0FFF ≤ (State.reset.setPc 0x0FFF).pc.toNat) ∧
    (State.reset.setPc 0xFFFF).Running ∧ (State.reset.setPc 0xFFFF).NextCycle none ∧
      0x0FFF ≤ (State.reset.setPc 0xFFFF).pc.toNat :=
  ⟨⟨rfl, .inl ⟨rfl, rfl⟩, by decide⟩, rfl, .inl ⟨rfl, rfl⟩, by decide⟩

/-- The last fetchable address, with memory zero. -/
theorem witness_UnknownOpcodeReported :
    let s := State.reset.setPc 0xFFE
    s.Running ∧ s.NextCycle none ∧ s.pc.toNat + 1 ≤ 0xFFF ∧
      decodeWord s.cfg s.WordAtPc = .unknown s.WordAtPc :=
  ⟨rfl, .inl ⟨rfl, rfl⟩, by decide, by decide⟩

theorem witness_CycleOfStoppedBlock :
    (powerOn.NextCycle none ∧ ¬ powerOn.Running) ∧
    (State.reset.setStatus (.halted .fontWrite)).NextCycle none ∧
      ¬ (State.reset.setStatus (.halted .fontWrite)).Running :=
  ⟨⟨.inl ⟨rfl, rfl⟩, by unfold State.Running; decide⟩, .inl ⟨rfl, rfl⟩,
    by unfold State.Running; decide⟩

/-- A fatal instruction and a fatal fetch. -/
theorem witness_FatalIsPrecise :
    ((at' 0x00EE).Running ∧ (at' 0x00EE).NextCycle none ∧
      step (at' 0x00EE) = .next (after (step (at' 0x00EE))) ∧
      (after (step (at' 0x00EE))).status = .halted .stackUnderflow) ∧
    ∃ s, s = State.reset.setPc 0xFFF ∧
      s.Running ∧ s.NextCycle none ∧ step s = .next (after (step s)) ∧
        (after (step s)).status = .halted .addressOutOfRange :=
  ⟨⟨rfl, .inl ⟨rfl, rfl⟩, step_after _ (by decide), by decide⟩,
    _, rfl, rfl, .inl ⟨rfl, rfl⟩, step_after _ (by decide), by decide⟩

theorem witness_CycleEmitsAtMostOne :
    State.reset.NextCycle none ∧ step State.reset = .next (after (step State.reset)) :=
  witness_cycle _ rfl (by decide)

/-- FX15 and FX18 that change DT and ST. -/
theorem witness_CycleTimersOnlyByTransfer :
    (∃ s, s = (withRegs [(1, 9)]).withFetchWord 16 0xF115 ∧
      (s.NextCycle none ∧ step s = .next (after (step s))) ∧ (after (step s)).dt = 9) ∧
    ∃ s, s = (withRegs [(1, 9)]).withFetchWord 16 0xF118 ∧
      (s.NextCycle none ∧ step s = .next (after (step s))) ∧ (after (step s)).st = 9 :=
  ⟨⟨_, rfl, witness_cycle _ rfl (by decide), by decide⟩,
    _, rfl, witness_cycle _ rfl (by decide), by decide⟩

theorem witness_RedrawAfterCycle :
    let s := at' 0xD011
    s.Running ∧ (s.NextCycle none ∧ step s = .next (after (step s))) ∧ (after (step s)).Running :=
  ⟨rfl, witness_cycle _ rfl (by decide), by unfold State.Running; decide⟩

/-- FX55 at the last address, and FX33 into the font under the policy write. -/
theorem witness_MemoryWriters :
    (∃ s, s = ((withRegs [(0, 7)]).setI 0xFFF).withFetchWord 16 0xF055 ∧
      s.MemOk ∧ (s.NextCycle none ∧ step s = .next (after (step s))) ∧
        (after (step s)).byteAt 0xFFF ≠ s.byteAt 0xFFF) ∧
    ∃ s, s = ({ withRegs [(0, 7)] with
        i := 0x04D, cfg := { defaultConfig with fontWrite := .write } }).withFetchWord 16 0xF033 ∧
      s.MemOk ∧ (s.NextCycle none ∧ step s = .next (after (step s))) ∧
        (after (step s)).byteAt 0x04F ≠ s.byteAt 0x04F :=
  ⟨⟨_, rfl, by unfold State.MemOk; decide, witness_cycle _ rfl (by decide), by decide⟩,
    _, rfl, by unfold State.MemOk; decide, witness_cycle _ rfl (by decide), by decide⟩

theorem witness_FramebufferWriters :
    let s := at' 0xD011
    (s.NextCycle none ∧ step s = .next (after (step s))) ∧
      (after (step s)).pixel 3 0 ≠ s.pixel 3 0 :=
  ⟨witness_cycle _ rfl (by decide), by decide⟩

theorem witness_IndexWriters :
    let s := at' 0xA300
    (s.NextCycle none ∧ step s = .next (after (step s))) ∧ (after (step s)).i ≠ s.i :=
  ⟨witness_cycle _ rfl (by decide), by decide⟩

theorem witness_CallStackUsers :
    (at' 0x2300).NextCycle none ∧ step (at' 0x2300) = .next (after (step (at' 0x2300))) :=
  witness_cycle _ rfl (by decide)

/-- FX0A takes key 0xF. -/
theorem witness_KeyLatchesOnlyCleared :
    let s := (State.reset.setKey 0xF true).withFetchWord 16 0xF20A
    (s.NextCycle none ∧ step s = .next (after (step s))) ∧
      (after (step s)).getKey 0xF ≠ s.getKey 0xF :=
  ⟨witness_cycle _ rfl (by decide), by decide⟩

theorem witness_RegisterWriters :
    let s := at' 0x6FFF
    (s.NextCycle none ∧ step s = .next (after (step s))) ∧
      (after (step s)).getV 0xF ≠ s.getV 0xF :=
  ⟨witness_cycle _ rfl (by decide), by decide⟩

theorem witness_StepKeepsMemoryCanonical :
    (at' 0xF055).MemOk ∧ step (at' 0xF055) = .next (after (step (at' 0xF055))) :=
  ⟨by unfold State.MemOk; decide, step_after _ (by decide)⟩

/-- A CALL in a state with a live entry at the bound. -/
theorem witness_StepKeepsReturnAddresses :
    let s := { at' 0x2300 with stack := (Vector.replicate 16 0x0FFE), sp := 15 }
    s.StackOk ∧ step s = .next (after (step s)) :=
  ⟨by unfold State.StackOk; decide, step_after _ (by decide)⟩

theorem witness_StepKeepsParameters_EventHistoryOnlyGrows :
    step State.reset = .next (after (step State.reset)) ∧
      (after (step State.reset)).events ≠ State.reset.events :=
  ⟨step_after _ (by decide), by decide⟩

theorem witness_HaltedIsAbsorbing :
    ∃ s, s = { State.reset with
        status := .halted .fontWrite, pending := [.keyWrite 0xF true] } ∧
      s.status = .halted .fontWrite ∧ step s = .next (after (step s)) ∧
      (∀ rom, ¬ s.NextIs (.start rom)) ∧ ¬ s.NextIs .stop ∧ s.NextIs (.keyWrite 0xF true) :=
  ⟨_, rfl, rfl, step_after _ (by decide),
    fun _ h => absurd (Option.some.inj h) nofun, fun h => absurd (Option.some.inj h) nofun, rfl⟩

/-- Running with the timers at 0 and 1, and Halted. -/
theorem witness_TickCountsDown :
    (∃ s, s = { State.reset with st := 1, pending := [.tick] } ∧
      s.NextIs .tick ∧ s.Running ∧ s.st.toNat = 1 ∧ s.dt.toNat = 0) ∧
    ∃ s, s = { State.reset with status := .halted .fontWrite, pending := [.tick] } ∧
      s.NextIs .tick ∧ ¬ s.Running :=
  ⟨⟨_, rfl, rfl, rfl, rfl, rfl⟩, _, rfl, rfl, by unfold State.Running; decide⟩

theorem witness_BeepOnlyAtTick :
    (∃ s, s = { State.reset with st := 1, pending := [.tick] } ∧
      step s = .next (after (step s)) ∧ s.Running ∧ s.NextIs .tick ∧ s.st.toNat = 1) ∧
    ∃ s, s = { State.reset with st := 2, pending := [.tick] } ∧
      step s = .next (after (step s)) ∧ ¬ (s.Running ∧ s.NextIs .tick ∧ s.st.toNat = 1) :=
  ⟨⟨_, rfl, step_after _ (by decide), rfl, rfl, rfl⟩, _, rfl, step_after _ (by decide),
    fun h => absurd h.2.2 (by decide)⟩

theorem witness_KeyWriteSetsLatch :
    { State.reset with pending := [.keyWrite 0xF true, .tick] }.NextIs (.keyWrite 0xF true) := rfl

/-- An image of the largest length and one of length 0. -/
theorem witness_StartLoadsImage :
    { State.reset with
      pending := [.start (.bytes (List.replicate 3583 1))] }.NextIs
        (.start (.bytes (List.replicate 3583 1))) ∧ (List.replicate 3583 (1 : Byte)).length ≤ 3583 ∧
    { State.reset with pending := [.start (.bytes [])] }.NextIs (.start (.bytes [])) :=
  ⟨rfl, by rw [List.length_replicate], rfl⟩

theorem witness_StartRejectsBadImage :
    { State.reset with
      pending := [.start (.bytes (List.replicate 3584 1))] }.NextIs
        (.start (.bytes (List.replicate 3584 1))) ∧ 3584 ≤ (List.replicate 3584 (1 : Byte)).length ∧
    { State.reset with pending := [.start (.unreadable 7)] }.NextIs (.start (.unreadable 7)) :=
  ⟨rfl, by rw [List.length_replicate], rfl⟩

theorem witness_StopAndDisplayRead :
    { State.reset with pending := [.stop] }.NextIs .stop ∧
    { State.reset with pending := [.readDisplay] }.NextIs .readDisplay := ⟨rfl, rfl⟩

/-- The stack at its least and its greatest depth, and empty; u = 0 under STRICT_DISPATCH. -/
theorem witness_ReturnPops :
    (State.reset.cfg.strictDispatch = false ∨ (0xF : Nibble) = 0) ∧
    (strictConfig.strictDispatch = false ∨ (0 : Nibble) = 0) ∧
    0 < ({ State.reset with sp := 1 }).sp.val ∧ 0 < ({ State.reset with sp := 16 }).sp.val ∧
    State.reset.sp.val = 0 := by decide

theorem witness_CallPushes :
    State.reset.sp.val < 16 ∧ ({ State.reset with sp := 15 }).sp.val < 16 ∧
    ({ State.reset with sp := 16 }).sp.val = 16 := by decide

/-- The depth and the entry survive an instruction of the called routine. -/
theorem witness_ReturnResumesAfterCall :
    let s := at' 0x2300
    let t := after (exec (.call 0x300) s)
    exec (.call 0x300) s = .next t ∧ (t.setV 3 9).sp = t.sp ∧
      (t.setV 3 9).stack[0]'(by decide) = t.stack[0]'(by decide) := ⟨rfl, rfl, rfl⟩

theorem witness_SkipsOnRegister_ClearScreen :
    (defaultConfig.strictDispatch = false ∨ (0xF : Nibble) = 0) ∧
    (strictConfig.strictDispatch = false ∨ (0 : Nibble) = 0) := by decide

/-- A state with this I under this FONT_WRITE_POLICY. -/
def withIndex (i : Word) (p : FontWritePolicy) : State :=
  { State.reset with i := i, cfg := { defaultConfig with fontWrite := p } }

/-- The first address past the font, the last three of memory, the font under ignore; I at the last
byte of a protected font; I + 2 at 0x1000. -/
theorem witness_BcdStoresDigits :
    ((withIndex 0x050 .fault).MemOk ∧ indexAddr (withIndex 0x050 .fault) + 2 < 0x1000 ∧
      ¬ indexAddr (withIndex 0x050 .fault) < 0x050) ∧
    ((withIndex 0xFFD .fault).MemOk ∧ indexAddr (withIndex 0xFFD .fault) + 2 < 0x1000 ∧
      ¬ indexAddr (withIndex 0xFFD .fault) < 0x050) ∧
    ((withIndex 0x04F .ignore).MemOk ∧ indexAddr (withIndex 0x04F .ignore) + 2 < 0x1000 ∧
      (withIndex 0x04F .ignore).cfg.fontWrite ≠ .fault) ∧
    (indexAddr (withIndex 0x04F .fault) < 0x050 ∧
      (withIndex 0x04F .fault).cfg.fontWrite = .fault) ∧
    0x1000 ≤ indexAddr (withIndex 0xFFE .write) + 2 := by
  unfold State.MemOk
  decide

theorem witness_RegistersStored :
    ((withIndex 0xFF0 .fault).MemOk ∧
      indexAddr (withIndex 0xFF0 .fault) + (0xF : Nibble).toNat < 0x1000 ∧
      ¬ indexAddr (withIndex 0xFF0 .fault) < 0x050) ∧
    ((withIndex 0x04F .write).MemOk ∧
      indexAddr (withIndex 0x04F .write) + (0xF : Nibble).toNat < 0x1000 ∧
      (withIndex 0x04F .write).cfg.fontWrite ≠ .fault) ∧
    (indexAddr (withIndex 0x04F .fault) < 0x050 ∧
      (withIndex 0x04F .fault).cfg.fontWrite = .fault) ∧
    0x1000 ≤ indexAddr (withIndex 0xFF1 .fault) + (0xF : Nibble).toNat := by
  unfold State.MemOk
  decide

theorem witness_RegistersLoaded :
    indexAddr (State.reset.setI 0xFF0) + (0xF : Nibble).toNat < 0x1000 ∧
    0x1000 ≤ indexAddr (State.reset.setI 0xFF1) + (0xF : Nibble).toNat := by decide

/-- A sprite of no rows from any I, one that ends at the last byte, one that reaches 0x1000; a
sprite that hits a lit pixel, and one whose pixels are all dark. -/
theorem witness_DrawTogglesSprite :
    ((0 : Nibble).toNat = 0) ∧ (State.reset.setI 0xFF1).i.toNat + (0xF : Nibble).toNat - 1 < 0x1000 ∧
    (1 ≤ (1 : Nibble).toNat ∧ 0x1000 ≤ (State.reset.setI 0x1000).i.toNat + (1 : Nibble).toNat - 1) ∧
    (∃ px py, SpriteHits 0 1 1 State.reset px py ∧ State.reset.pixel px py = false) ∧
    (∃ px py, SpriteHits 0 1 1 (State.reset.setFb (clearRows.toggle 3 0)) px py ∧
      (State.reset.setFb (clearRows.toggle 3 0)).pixel px py = true) ∧
    ∀ px py, SpriteHits 0 1 1 State.reset px py → State.reset.pixel px py = false :=
  ⟨rfl, by decide, by decide, ⟨3, 0, by unfold SpriteHits; decide, by decide⟩,
    ⟨3, 0, by unfold SpriteHits; decide, by decide⟩, fun px py _ => pixel_clearRows px py⟩

theorem witness_DrawTwiceRestores :
    let s := State.reset.setI 0xFFB
    (0 : Nibble) ≠ 0xF ∧ (1 : Nibble) ≠ 0xF ∧ s.i.toNat + (5 : Nibble).toNat - 1 < 0x1000 ∧
      exec (.drw 0 1 5) s = .next (after (exec (.drw 0 1 5) s)) :=
  ⟨by decide, by decide, by decide, rfl⟩

/-- The greatest key index and the least one that faults; the latch set and clear. -/
theorem witness_KeySkipsClearLatch :
    ((withRegs [(5, 0x0F)]).getV 5).toNat = (0xF : Fin 16).val ∧
    ((withRegs [(5, 0x0F)]).setKey 0xF true).getKey 0xF = true ∧
    (withRegs [(5, 0x0F)]).getKey 0xF = false ∧
    0x0F < ((withRegs [(5, 0x10)]).getV 5).toNat := by decide

theorem witness_KeyWaitTakesLeast :
    (((State.reset.setKey 0xE true).setKey 0xF true).getKey 0xE = true ∧
      ∀ j : Fin 16, j < 0xE →
        ((State.reset.setKey 0xE true).setKey 0xF true).getKey j = false) ∧
    ∀ k, State.reset.getKey k = false := by decide

end Sys2Proof.Tests
end

section
/-! PROOFS. The state and its writers (10_state.md R20 to R41): which instruction a Cycle needs in
order to change a field, what no step changes, what a halted block does, and a session's start. -/

namespace Sys2Proof.Machine

variable {s t u : State} {r : Option Byte} {i j : Instr}

/-! ## The fields that have listed writers -/

/-- The fields that R23, R26, R28, R32 and R34 give writers among the instructions are alike. -/
structure SameWrittenFields (s t : State) : Prop where
  v     : t.v = s.v
  i     : t.i = s.i
  stack : t.stack = s.stack
  sp    : t.sp = s.sp
  key   : t.key = s.key
  fb    : t.fb = s.fb

theorem SameWrittenFields.getV (h : SameWrittenFields s t) (x : Nibble) : t.getV x = s.getV x := by
  simp only [State.getV, h.v]

theorem SameWrittenFields.getKey (h : SameWrittenFields s t) (k : Fin 16) :
    t.getKey k = s.getKey k := by
  simp only [State.getKey, h.key]

theorem pixel_eq_of_fb_eq (h : t.fb = s.fb) (px py : Nat) : t.pixel px py = s.pixel px py :=
  congrArg (Rows.pixel · px py) h

/-- A Cycle changes a field that has listed writers only by completing the instruction at PC, so
within that instruction's effects. -/
theorem step_cycle_same_or_effects (hc : s.NextCycle r) (h : step s = .next t) :
    SameWrittenFields s t ∨
      ∃ i, s.AboutToRun r i ∧ Effects i (beginCycle r (takePending s)) t := by
  rcases step_cycle_cases hc h with
    ⟨-, rfl⟩ | ⟨-, -, rfl⟩ | ⟨-, -, -, rfl⟩ | ⟨i, hi, ⟨-, he⟩ | ⟨c, rfl⟩⟩
  · exact .inl ⟨rfl, rfl, rfl, rfl, rfl, rfl⟩
  · exact .inl ⟨rfl, rfl, rfl, rfl, rfl, rfl⟩
  · exact .inl ⟨rfl, rfl, rfl, rfl, rfl, rfl⟩
  · exact .inr ⟨i, hi, exec_effects he⟩
  · exact .inl ⟨rfl, rfl, rfl, rfl, rfl, rfl⟩

/-- Settles O16: the instruction whose effects change `fb` is a DRW or a CLS. -/
theorem framebufferWriters : Obligations.FramebufferWriters := by
  intro s t r px py hc h hne
  rcases step_cycle_same_or_effects hc h with hs | ⟨i, hi, he⟩
  · exact absurd (pixel_eq_of_fb_eq hs.fb px py) hne
  · rcases he.fb with hfb | ⟨x, y, n, rfl⟩ | ⟨u, rfl⟩
    · exact absurd (pixel_eq_of_fb_eq hfb px py) hne
    · exact .inl ⟨x, y, n, hi⟩
    · exact .inr ⟨u, hi⟩

/-- Settles O17: the instruction whose effects change `I` is one of its three writers. -/
theorem indexWriters : Obligations.IndexWriters := by
  intro s t r hc h hne
  rcases step_cycle_same_or_effects hc h with hs | ⟨i, hi, he⟩
  · exact absurd hs.i hne
  · rcases he.index with hsame | ⟨nnn, rfl⟩ | ⟨x, rfl⟩ | ⟨x, rfl⟩
    · exact absurd hsame hne
    · exact .inl ⟨nnn, hi⟩
    · exact .inr (.inl ⟨x, hi⟩)
    · exact .inr (.inr ⟨x, hi⟩)

/-- Settles O18: the stack part of the completed instruction's effects. -/
theorem callStackUsers : Obligations.CallStackUsers := by
  intro s t r hc h
  rcases step_cycle_same_or_effects hc h with hs | ⟨i, hi, he⟩
  · exact .inl ⟨hs.sp, hs.stack⟩
  · rcases he.stack with hsame | ⟨nnn, rfl, hpush⟩ | ⟨u, rfl, hpop⟩
    · exact .inl hsame
    · exact .inr (.inl ⟨nnn, hi, hpush⟩)
    · exact .inr (.inr ⟨u, hi, hpop⟩)

/-- Settles O19: the latch part of the completed instruction's effects. -/
theorem keyLatchesOnlyCleared : Obligations.KeyLatchesOnlyCleared := by
  intro s t r k hc h hne
  rcases step_cycle_same_or_effects hc h with hs | ⟨i, hi, he⟩
  · exact absurd (hs.getKey k) hne
  · obtain ⟨hset, hclear, hreader⟩ := he.keys k hne
    refine ⟨hset, hclear, ?_⟩
    rcases hreader with ⟨x, rfl, hx⟩ | ⟨x, rfl, hx⟩ | ⟨x, rfl, hx⟩
    · exact .inl ⟨x, hi, hx⟩
    · exact .inr (.inl ⟨x, hi, hx⟩)
    · exact .inr (.inr ⟨x, hi, hx⟩)

/-- Settles O20: the register part of the completed instruction's effects. -/
theorem registerWriters : Obligations.RegisterWriters := by
  intro s t r k hc h hne
  rcases step_cycle_same_or_effects hc h with hs | ⟨i, hi, he⟩
  · exact absurd (hs.getV k) hne
  · exact ⟨i, hi, he.regs k hne⟩

/-! ## The redraw flag (R36) -/

/-- The word at PC decodes as one instruction. -/
theorem State.AboutToRun.unique (hi : s.AboutToRun r i) (hj : s.AboutToRun r j) : i = j := by
  obtain ⟨-, -, -, hdi⟩ := hi
  obtain ⟨-, -, -, hdj⟩ := hj
  exact Verdict.instr.inj (hdi.symm.trans hdj)

/-- A word that decodes as Unknown runs no instruction. -/
theorem not_aboutToRun_of_unknown {w : Word} (h : decodeWord s.cfg (fetchWord s) = .unknown w) :
    ¬ s.AboutToRun r i := by
  rintro ⟨-, -, -, hd⟩
  rw [State.wordAtPc_eq, h] at hd
  cases hd

/-- A Cycle that leaves the block running reported an unknown word, or completed an instruction;
it did not halt. -/
theorem step_cycle_running_cases (hrun : s.Running) (hc : s.NextCycle r) (h : step s = .next t)
    (ht : t.Running) :
    (t.redraw = false ∧ ∀ i, ¬ s.AboutToRun r i) ∨
      ∃ i, s.AboutToRun r i ∧ Effects i (beginCycle r (takePending s)) t := by
  rcases step_cycle_cases hc h with
    ⟨hstop, -⟩ | ⟨-, -, rfl⟩ | ⟨-, -, hd, rfl⟩ | ⟨i, hi, ⟨-, he⟩ | ⟨c, rfl⟩⟩
  · exact absurd hrun hstop
  · cases ht
  · exact .inl ⟨rfl, fun _ => not_aboutToRun_of_unknown hd⟩
  · exact .inr ⟨i, hi, exec_effects he⟩
  · cases ht

/-- Settles O14: the Cycle clears the flag, and the one instruction it completes sets it or not. -/
theorem redrawAfterCycle : Obligations.RedrawAfterCycle := by
  intro s t r hrun hc h ht
  rcases step_cycle_running_cases hrun hc h ht with ⟨hclear, hnone⟩ | ⟨i, hi, he⟩
  · simp [hclear, hnone]
  · refine (he.redraw ht rfl).trans (or_congr ⟨?_, ?_⟩ ⟨?_, ?_⟩)
    · rintro ⟨x, y, n, rfl⟩
      exact ⟨x, y, n, hi⟩
    · rintro ⟨x, y, n, hdrw⟩
      exact ⟨x, y, n, hi.unique hdrw⟩
    · rintro ⟨u, rfl, hset⟩
      exact ⟨u, hi, hset⟩
    · rintro ⟨u, hcls, hset⟩
      exact ⟨u, hi.unique hcls, hset⟩

/-! ## The parameters (R39) -/

theorem start_cfg (rom : RomImage) (s : State) : (start rom s).cfg = s.cfg := by
  cases rom with
  | unreadable len => rfl
  | bytes b =>
    rcases Nat.lt_or_ge romMax b.length with hlong | hfits
    · rw [start_of_too_long hlong]
      rfl
    · rw [start_of_fits hfits]
      rfl

theorem tick_cfg (s : State) : (tick s).cfg = s.cfg := by
  by_cases hrun : s.status = .running
  · by_cases hst : s.st = 1
    · rw [tick_of_beep hrun hst]
      rfl
    · rw [tick_of_quiet hrun hst]
      rfl
  · rw [tick_of_not_running hrun]

theorem step_cycle_cfg (hc : s.NextCycle r) (h : step s = .next t) : t.cfg = s.cfg := by
  rcases step_cycle_cases hc h with
    ⟨-, rfl⟩ | ⟨-, -, rfl⟩ | ⟨-, -, -, rfl⟩ | ⟨i, -, ⟨hq, -⟩ | ⟨c, rfl⟩⟩
  · rfl
  · rfl
  · rfl
  · exact hq.cfg
  · rfl

/-- Settles O25: a Cycle, and each other transaction, leaves the parameters. -/
theorem stepKeepsParameters : Obligations.StepKeepsParameters := by
  intro s t h
  rcases s.next_cases with ⟨r, hc⟩ | ⟨x, hx, hnc⟩
  · exact step_cycle_cfg hc h
  · rw [step_of_nextIs hx] at h
    cases x with
    | cycle b => exact absurd rfl (hnc b)
    | start rom => cases h; exact start_cfg rom _
    | tick => cases h; exact tick_cfg _
    | keyWrite k b => cases h; rfl
    | stop => cases h; rfl
    | readDisplay => cases h; rfl

/-! ## A halted block (R37) -/

theorem Part.Same.trans {p : Part} (hst : p.Same s t) (htu : p.Same t u) : p.Same s u := by
  cases p with
  | random => exact ⟨htu.1.trans hst.1, htu.2.trans hst.2⟩
  | _ => exact Eq.trans htu hst

/-- Taking the next transaction off the list changes the list alone. -/
theorem same_takePending {p : Part} (hp : p ≠ .pending) : p.Same s (takePending s) := by
  cases p with
  | pending => exact absurd rfl hp
  | random => exact ⟨rfl, rfl⟩
  | _ => rfl

/-- A latch write changes that latch alone. -/
theorem same_setKey {p : Part} {k : Fin 16} (b : Bool) (hp : p ≠ .key k) :
    p.Same s (s.setKey k b) := by
  cases p with
  | key j =>
    have hj : j ≠ k := fun e => hp (congrArg Part.key e)
    exact (s.getKey_setKey k j b).trans (if_neg hj)
  | random => exact ⟨rfl, rfl⟩
  | _ => rfl

/-- A transaction of a block that is not running, other than Start and Stop, is a KeyWrite or has
no effect. -/
theorem step_stopped_cases (hstop : ¬ s.Running) (h : step s = .next t)
    (hstart : ∀ rom, ¬ s.NextIs (.start rom)) (hnostop : ¬ s.NextIs .stop) :
    t = takePending s ∨ ∃ k b, s.NextIs (.keyWrite k b) ∧ t = (takePending s).setKey k b := by
  rcases s.next_cases with ⟨r, hc⟩ | ⟨x, hx, hnc⟩
  · rw [step_of_nextCycle hc, cycle_of_not_running (s := takePending s) r hstop] at h
    cases h
    exact .inl rfl
  · rw [step_of_nextIs hx] at h
    cases x with
    | cycle b => exact absurd rfl (hnc b)
    | start rom => exact absurd hx (hstart rom)
    | tick => cases h; exact .inl (tick_of_not_running hstop)
    | keyWrite k b => cases h; exact .inr ⟨k, b, hx, rfl⟩
    | stop => exact absurd hx hnostop
    | readDisplay => cases h; exact .inl rfl

/-- Settles O27: a halted block is not running, so only a KeyWrite has an effect on it. -/
theorem haltedIsAbsorbing : Obligations.HaltedIsAbsorbing := by
  intro s t c hhalt h hstart hnostop
  have hstop : ¬ s.Running := by simp [State.Running, hhalt]
  rcases step_stopped_cases hstop h hstart hnostop with rfl | ⟨k, b, hx, rfl⟩
  · exact ⟨hhalt, fun p hp => same_takePending fun e => hp (.inl e)⟩
  · refine ⟨hhalt, fun p hp => ?_⟩
    have hpending : p ≠ .pending := fun e => hp (.inl e)
    have hkey : p ≠ .key k := fun e => hp (.inr ⟨k, b, hx, e⟩)
    exact (same_takePending hpending).trans (same_setKey b hkey)

/-! ## The start of a session (R41) -/

theorem Memory.unlisted_of_lt (font : Font) {a : Nat} (h : a < 80) :
    Memory.unlisted font a = font[a] :=
  dif_pos h

theorem Memory.unlisted_of_ge (font : Font) {a : Nat} (h : 80 ≤ a) : Memory.unlisted font a = 0 :=
  dif_neg (Nat.not_lt.2 h)

section
variable {rom : List Byte} (hfits : rom.length ≤ romMax)
include hfits

theorem byteAt_newSession_below {a : Nat} (ha : a < progBase) :
    (newSession rom s).byteAt a = Memory.unlisted s.cfg.font a := by
  rw [byteAt_newSession hfits, if_neg (Nat.not_le.2 ha)]

theorem byteAt_newSession_image (k : Fin rom.length) :
    (newSession rom s).byteAt (progBase + k.val) = rom[k] := by
  simp [byteAt_newSession hfits]

theorem byteAt_newSession_after {a : Nat} (ha : progBase + rom.length ≤ a) :
    (newSession rom s).byteAt a = 0 := by
  have hbase : progBase ≤ a := by omega
  have hpast : rom.length ≤ a - progBase := by omega
  have hfont : 80 ≤ a := Nat.le_trans (by decide) hbase
  rw [byteAt_newSession hfits, if_pos hbase, List.getD_eq_default _ _ hpast,
    Memory.unlisted_of_ge _ hfont]

end

theorem newSession_getV (rom : List Byte) (s : State) (x : Nibble) :
    (newSession rom s).getV x = 0 :=
  Vector.getElem_replicate x.isLt

theorem newSession_stack (rom : List Byte) (s : State) (k : Fin 16) :
    (newSession rom s).stack[k] = 0 :=
  Vector.getElem_replicate k.isLt

theorem newSession_getKey (rom : List Byte) (s : State) (k : Fin 16) :
    (newSession rom s).getKey k = false :=
  Vector.getElem_replicate k.isLt

theorem newSession_fbBit (rom : List Byte) (s : State) (k : Nat) :
    (newSession rom s).fbBit k = false :=
  pixel_clearRows _ _

/-- Settles O31: the state of a new session, memory by its four ranges and then field by field. -/
theorem startLoadsImage : Obligations.StartLoadsImage := by
  intro s rom hx hlen
  have hstep : step s = .next (newSession rom (takePending s)) := by
    rw [step_of_nextIs hx]
    exact congrArg _ (start_of_fits hlen)
  refine ⟨newSession rom (takePending s), hstep, fun a => ?_, fun a hlo hhi => ?_,
    byteAt_newSession_image hlen, fun a ha _ => byteAt_newSession_after hlen ha,
    newSession_getV rom _, rfl, rfl, newSession_stack rom _, rfl, rfl, rfl,
    newSession_getKey rom _, newSession_fbBit rom _, rfl, rfl, rfl, rfl, rfl⟩
  · have hbelow : a.val < progBase := Nat.lt_trans a.isLt (by decide)
    exact (byteAt_newSession_below hlen hbelow).trans (Memory.unlisted_of_lt _ a.isLt)
  · have hbelow : a < progBase := Nat.lt_succ_of_le hhi
    exact (byteAt_newSession_below hlen hbelow).trans (Memory.unlisted_of_ge _ hlo)

/-! ## The invariants at reset -/

/-- With no live entry there is no return address to bound. -/
theorem stackOk_of_empty (h : s.sp.val = 0) : s.StackOk :=
  fun _ hk => absurd (h ▸ hk) (Nat.not_lt_zero _)

/-- Settles O23: reset lists no byte of memory and has no live stack entry. -/
theorem resetMeetsInvariants : Obligations.ResetMeetsInvariants :=
  ⟨Memory.wf_nil, stackOk_of_empty rfl⟩

end Sys2Proof.Machine
end

section
/-! PROOFS. Memory (20_memory.md R50 to R58): its canonical form under every step, what a Cycle
writes, and the instructions that move bytes between memory, registers and the framebuffer, each
with the check of its addresses. -/

namespace Sys2Proof.Machine

variable {s t : State} {r : Option Byte} {i : Instr}

/-! ## The canonical form under every step (R50) -/

theorem step_cycle_memOk (hs : s.MemOk) (hc : s.NextCycle r) (h : step s = .next t) : t.MemOk := by
  rcases step_cycle_cases hc h with
    ⟨-, rfl⟩ | ⟨-, -, rfl⟩ | ⟨-, -, -, rfl⟩ | ⟨i, -, ⟨-, he⟩ | ⟨c, rfl⟩⟩
  · exact hs
  · exact hs
  · exact hs
  · exact exec_memOk (s := beginCycle r (takePending s)) hs he
  · exact hs

/-- A failed Start leaves memory, and a successful one lists an image that fits. -/
theorem start_memOk (rom : RomImage) (hs : s.MemOk) : (start rom s).MemOk := by
  cases rom with
  | unreadable len => exact hs
  | bytes b =>
    rcases Nat.lt_or_ge romMax b.length with hlong | hfits
    · rw [start_of_too_long hlong]
      exact hs
    · rw [start_of_fits hfits]
      have hroom : progBase + romMax ≤ memSize := by decide
      exact Memory.wf_image b (Nat.le_trans (Nat.add_le_add_left hfits progBase) hroom)

theorem tick_mem (s : State) : (tick s).mem = s.mem := by
  by_cases hrun : s.status = .running
  · by_cases hst : s.st = 1
    · rw [tick_of_beep hrun hst]
      rfl
    · rw [tick_of_quiet hrun hst]
      rfl
  · rw [tick_of_not_running hrun]

theorem tick_memOk (hs : s.MemOk) : (tick s).MemOk := by
  rw [State.MemOk, tick_mem, tick_cfg]
  exact hs

/-- Settles O21: a Cycle stores only at checked addresses, a Start lists an image that fits, and
the other transactions leave memory. -/
theorem stepKeepsMemoryCanonical : Obligations.StepKeepsMemoryCanonical := by
  intro s t hs h
  rcases s.next_cases with ⟨r, hc⟩ | ⟨x, hx, hnc⟩
  · exact step_cycle_memOk hs hc h
  · rw [step_of_nextIs hx] at h
    cases x with
    | cycle b => exact absurd rfl (hnc b)
    | start rom => cases h; exact start_memOk (s := takePending s) rom hs
    | tick => cases h; exact tick_memOk (s := takePending s) hs
    | keyWrite k b => cases h; exact hs
    | stop => cases h; exact hs
    | readDisplay => cases h; exact hs

/-! ## Who writes memory (R54, R58) -/

theorem byteAt_eq_of_mem_eq (hm : t.mem = s.mem) (hc : t.cfg = s.cfg) (a : Nat) :
    t.byteAt a = s.byteAt a := by
  simp only [State.byteAt, hm, hc]

/-- A store of bytes changes only the bytes it names, and the font only under the policy `write`. -/
theorem of_byteAt_storeBytes_ne {base n a : Nat} {bs : List Byte} (hs : s.MemOk)
    (hlen : bs.length = n) (hb : base + n ≤ memSize)
    (hne : (s.storeBytes base bs).byteAt a ≠ s.byteAt a) :
    (base ≤ a ∧ a < base + n) ∧ a < memSize ∧ (a < 0x050 → s.cfg.fontWrite = .write) := by
  subst hlen
  obtain ⟨hlo, hhi, hfont⟩ :
      base ≤ a ∧ a < base + bs.length ∧ (0x050 ≤ a ∨ s.cfg.fontWrite = .write) := by
    by_contra hout
    exact hne ((s.byteAt_storeBytes bs hb hs a).trans (if_neg hout))
  exact ⟨⟨hlo, hhi⟩, Nat.lt_of_lt_of_le hhi hb, fun ha => hfont.resolve_left (Nat.not_le.2 ha)⟩

/-- A Cycle changes a byte of memory only by completing the instruction at PC. -/
theorem step_cycle_sameByte_or_exec (a : Nat) (hc : s.NextCycle r) (h : step s = .next t) :
    t.byteAt a = s.byteAt a ∨
      ∃ i, s.AboutToRun r i ∧ exec i (beginCycle r (takePending s)) = .next t := by
  rcases step_cycle_cases hc h with
    ⟨-, rfl⟩ | ⟨-, -, rfl⟩ | ⟨-, -, -, rfl⟩ | ⟨i, hi, ⟨-, he⟩ | ⟨c, rfl⟩⟩
  · exact .inl rfl
  · exact .inl rfl
  · exact .inl rfl
  · exact .inr ⟨i, hi, he⟩
  · exact .inl rfl

/-- Settles O15: the completed instruction is FX33 or FX55, and its store changes the byte. -/
theorem memoryWriters : Obligations.MemoryWriters := by
  intro s t r a hs hc h hne
  rcases step_cycle_sameByte_or_exec a hc h with hsame | ⟨i, hi, he⟩
  · exact absurd hsame hne
  have hok : (beginCycle r (takePending s)).MemOk := hs
  rcases exec_mem he with hm | ⟨x, rfl, hfit, rfl⟩ | ⟨x, rfl, hfit, rfl⟩
  · exact absurd (byteAt_eq_of_mem_eq hm (exec_cfg he) a) hne
  · obtain ⟨⟨hlo, hhi⟩, hbound⟩ := of_byteAt_storeBytes_ne hok rfl hfit hne
    exact ⟨.inl ⟨x, hi, hlo, Nat.le_of_lt_succ hhi⟩, hbound⟩
  · obtain ⟨⟨hlo, hhi⟩, hbound⟩ :=
      of_byteAt_storeBytes_ne hok (State.length_firstRegs _ (regCount x)) hfit hne
    exact ⟨.inr ⟨x, hi, hlo, Nat.le_of_lt_succ hhi⟩, hbound⟩

/-! ## The check before a transfer, and its condition (R53 to R55, R107) -/

section
variable {base n : Nat}

theorem checked_reads_pass (h : n = 0 ∨ base + n ≤ 0x1000) :
    checked (firstFault readCheck base n) i s t = .next t := by
  rw [firstFault_readCheck, if_pos h]
  rfl

theorem checked_reads_range (hn : 0 < n) (h : 0x1000 < base + n) :
    checked (firstFault readCheck base n) i s t =
      .next (s.raiseFatal .addressOutOfRange (some (encode i))) := by
  rw [firstFault_readCheck, if_neg (by omega)]
  rfl

variable (hn : 0 < n)
include hn

theorem checked_writes_pass (h : base + n ≤ 0x1000)
    (hfont : base < 0x050 → s.cfg.fontWrite ≠ .fault) :
    checked (firstFault (writeCheck s.cfg) base n) i s t = .next t := by
  rw [firstFault_writeCheck _ _ _ hn, if_neg (fun hf => hfont hf.1 hf.2), if_pos h]
  rfl

theorem checked_writes_font (hfont : base < 0x050 ∧ s.cfg.fontWrite = .fault) :
    checked (firstFault (writeCheck s.cfg) base n) i s t =
      .next (s.raiseFatal .fontWrite (some (encode i))) := by
  rw [firstFault_writeCheck _ _ _ hn, if_pos hfont]
  rfl

theorem checked_writes_range (hbase : 0x050 ≤ base) (h : 0x1000 < base + n) :
    checked (firstFault (writeCheck s.cfg) base n) i s t =
      .next (s.raiseFatal .addressOutOfRange (some (encode i))) := by
  rw [firstFault_writeCheck _ _ _ hn, if_neg (by omega), if_neg (by omega)]
  rfl

end

/-- Taking a Fatal condition is its status and its event, and nothing else (R232). -/
theorem haltsOn_raiseFatal (cause : FatalCause) (word : Word) (s : State) :
    HaltsOn cause word s (s.raiseFatal cause (some word)) := by
  refine ⟨rfl, rfl, fun p hp => ?_⟩
  cases p with
  | status => exact absurd (by simp) hp
  | events => exact absurd (by simp) hp
  | random => exact ⟨rfl, rfl⟩
  | _ => rfl

/-! ## What the parts of a transfer leave unchanged -/

theorem pcMoves_advance (h : t.pc = s.pc) : PcMoves 2 s t.advance := by
  simp [PcMoves, h]

theorem same_advance {p : Part} (hp : p ≠ .pc) : p.Same s s.advance := by
  cases p with
  | pc => exact absurd rfl hp
  | random => exact ⟨rfl, rfl⟩
  | _ => rfl

/-- A store of bytes changes bytes of its range alone. -/
theorem same_storeBytes {p : Part} {base : Nat} {bs : List Byte} (hs : s.MemOk)
    (hb : base + bs.length ≤ memSize)
    (hp : ∀ a, base ≤ a → a < base + bs.length → p ≠ .byte a) :
    p.Same s (s.storeBytes base bs) := by
  cases p with
  | byte a =>
    refine (s.byteAt_storeBytes bs hb hs a).trans (if_neg ?_)
    rintro ⟨hlo, hhi, -⟩
    exact hp a hlo hhi rfl
  | _ => simp [Part.Same]

/-- A load of registers changes registers of its range alone. -/
theorem same_setRegs {p : Part} {bs : List Byte} (hb : bs.length ≤ 16)
    (hp : ∀ x : Nibble, x.toNat < bs.length → p ≠ .reg x) :
    p.Same s (s.setRegs 0 bs) := by
  cases p with
  | reg x =>
    refine (s.getV_setRegs bs (by omega) x).trans (if_neg ?_)
    rintro ⟨-, hx⟩
    exact hp x (by omega) rfl
  | _ => simp [Part.Same]

/-- The frame of a store that completes. -/
theorem unchanged_storeBytes_advance {base n : Nat} {bs : List Byte} (hs : s.MemOk)
    (hlen : bs.length = n) (hb : base + n ≤ memSize) :
    UnchangedOutside (fun p => p = .pc ∨ ∃ a, base ≤ a ∧ a < base + n ∧ p = .byte a) s
      (s.storeBytes base bs).advance := by
  subst hlen
  intro p hp
  have hbytes : p.Same s (s.storeBytes base bs) :=
    same_storeBytes hs hb fun a hlo hhi e => hp (.inr ⟨a, hlo, hhi, e⟩)
  exact hbytes.trans (same_advance fun e => hp (.inl e))

/-- What a store that passed its check leaves at its `k`-th address: the byte, but for the font
where the policy is `ignore` (R54). -/
theorem byteAt_storeBytes_add {base k : Nat} {bs : List Byte} (hs : s.MemOk)
    (hb : base + bs.length ≤ memSize) (hfont : base < 0x050 → s.cfg.fontWrite ≠ .fault)
    (hk : k < bs.length) :
    (s.storeBytes base bs).byteAt (base + k) =
      if base + k < 0x050 ∧ s.cfg.fontWrite = .ignore then s.byteAt (base + k)
      else bs.getD k 0 := by
  rw [s.byteAt_storeBytes bs hb hs, Nat.add_sub_cancel_left]
  by_cases hlow : base + k < 0x050
  · have hnofault := hfont (by omega)
    cases hpol : s.cfg.fontWrite with
    | fault => exact absurd hpol hnofault
    | write => simp [hk]
    | ignore => simp [hlow]
  · simp [hlow, hk, Nat.le_of_not_lt hlow]

/-! ## FX33, FX55 and FX65 (43_index_memory.md R173 to R175) -/

/-- A word of class 0xF is dispatched by its low byte (30_encoding.md R78). -/
theorem decodeWord_mkXNN_F (c : Config) (x : Nibble) (nn : Byte) :
    decodeWord c (mkXNN 0xF x nn) = decodeClassF (mkXNN 0xF x nn) := by
  rw [decodeWord, classOf_mkXNN]
  rfl

theorem decodeWord_ldBVx (c : Config) (x : Nibble) :
    decodeWord c (encode (.ldBVx x)) = .instr (.ldBVx x) :=
  (decodeWord_mkXNN_F c x _).trans (by simp [decodeClassF])

theorem decodeWord_ldMemVx (c : Config) (x : Nibble) :
    decodeWord c (encode (.ldMemVx x)) = .instr (.ldMemVx x) :=
  (decodeWord_mkXNN_F c x _).trans (by simp [decodeClassF])

theorem decodeWord_ldVxMem (c : Config) (x : Nibble) :
    decodeWord c (encode (.ldVxMem x)) = .instr (.ldVxMem x) :=
  (decodeWord_mkXNN_F c x _).trans (by simp [decodeClassF])

theorem exec_ldBVx (x : Nibble) (s : State) : exec (.ldBVx x) s =
    checked (firstFault (writeCheck s.cfg) (indexAddr s) 3) (.ldBVx x) s
      (s.storeBytes (indexAddr s) (bcdDigits (s.getV x))).advance := rfl

theorem exec_ldMemVx (x : Nibble) (s : State) : exec (.ldMemVx x) s =
    checked (firstFault (writeCheck s.cfg) (indexAddr s) (regCount x)) (.ldMemVx x) s
      (s.storeBytes (indexAddr s) (s.firstRegs (regCount x))).advance := rfl

theorem exec_ldVxMem (x : Nibble) (s : State) : exec (.ldVxMem x) s =
    checked (firstFault readCheck (indexAddr s) (regCount x)) (.ldVxMem x) s
      (s.setRegs 0 (s.bytesAt (indexAddr s) (regCount x))).advance := rfl

theorem regCount_pos (x : Nibble) : 0 < regCount x := Nat.succ_pos _

theorem lt_regCount {x k : Nibble} : k.toNat < regCount x ↔ k.toNat ≤ x.toNat := Nat.lt_succ_iff

theorem regCount_le (x : Nibble) : regCount x ≤ 16 := x.isLt

/-- The digits of a byte are its decimal digits, the hundreds first (R173). -/
theorem toNat_getD_bcdDigits (b : Byte) {k : Nat} (hk : k < 3) :
    ((bcdDigits b).getD k 0).toNat = b.toNat / 10 ^ (2 - k) % 10 := by
  have hb := b.isLt
  match k, hk with
  | 0, _ => simp [bcdDigits]; omega
  | 1, _ => simp [bcdDigits]
  | 2, _ => simp [bcdDigits]

/-- Settles O50: the check passes or raises its condition, and a completed store leaves the digits. -/
theorem bcdStoresDigits : Obligations.BcdStoresDigits := by
  intro s x
  refine ⟨decodeWord_ldBVx s.cfg x, fun hs hfit hfont => ?_, fun hfont => ?_, fun hrange => ?_⟩
  · refine ⟨_, (exec_ldBVx x s).trans (checked_writes_pass (by decide) hfit hfont),
      pcMoves_advance (by simp), fun k hk => ?_, unchanged_storeBytes_advance hs rfl hfit⟩
    rw [← toNat_getD_bcdDigits _ hk, ← apply_ite BitVec.toNat]
    exact congrArg BitVec.toNat (byteAt_storeBytes_add hs hfit hfont hk)
  · exact ⟨_, (exec_ldBVx x s).trans (checked_writes_font (by decide) hfont),
      haltsOn_raiseFatal _ _ s⟩
  · exact ⟨_, (exec_ldBVx x s).trans (checked_writes_range (by decide) (by omega) (by omega)),
      haltsOn_raiseFatal _ _ s⟩

/-- The `k`-th byte of the registers that FX55 stores is `V[k]`. -/
theorem getD_firstRegs_regCount {x k : Nibble} (hk : k.toNat ≤ x.toNat) :
    (s.firstRegs (regCount x)).getD k.toNat 0 = s.getV k := by
  rw [s.getD_firstRegs (lt_regCount.2 hk), BitVec.ofNat_toNat, BitVec.setWidth_eq]

/-- Settles O51: the check passes or raises its condition, and a completed store leaves the
registers' bytes. -/
theorem registersStored : Obligations.RegistersStored := by
  intro s x
  have hle := regCount_le x
  have hpos := regCount_pos x
  have hlen := s.length_firstRegs (regCount x)
  refine ⟨decodeWord_ldMemVx s.cfg x, fun hs hfit hfont => ?_, fun hfont => ?_, fun hrange => ?_⟩
  · refine ⟨_, (exec_ldMemVx x s).trans (checked_writes_pass hpos hfit hfont),
      pcMoves_advance (by simp), fun k hk => ?_, unchanged_storeBytes_advance hs hlen hfit⟩
    rw [← getD_firstRegs_regCount hk]
    exact byteAt_storeBytes_add hs (hlen.symm ▸ hfit) hfont (hlen.symm ▸ lt_regCount.2 hk)
  · exact ⟨_, (exec_ldMemVx x s).trans (checked_writes_font hpos hfont), haltsOn_raiseFatal _ _ s⟩
  · have hpast : 0x1000 < indexAddr s + regCount x := Nat.lt_succ_of_le hrange
    exact ⟨_, (exec_ldMemVx x s).trans (checked_writes_range hpos (by omega) hpast),
      haltsOn_raiseFatal _ _ s⟩

/-- Settles O52: the check passes or raises its condition, and a completed load leaves the bytes
in the registers. -/
theorem registersLoaded : Obligations.RegistersLoaded := by
  intro s x
  have hlen := s.length_bytesAt (indexAddr s) (regCount x)
  have hle : (s.bytesAt (indexAddr s) (regCount x)).length ≤ 16 := hlen.symm ▸ regCount_le x
  refine ⟨decodeWord_ldVxMem s.cfg x, fun hfit => ?_, fun hrange => ?_⟩
  · refine ⟨_, (exec_ldVxMem x s).trans (checked_reads_pass (.inr hfit)),
      pcMoves_advance (by simp), fun k hk => ?_, fun p hp => ?_⟩
    · have hk' : k.toNat < regCount x := lt_regCount.2 hk
      refine (s.getV_setRegs _ (by omega) k).trans ?_
      rw [if_pos (by omega)]
      exact s.getD_bytesAt hk'
    · have hregs : p.Same s (s.setRegs 0 (s.bytesAt (indexAddr s) (regCount x))) :=
        same_setRegs hle fun y hy e => hp (.inr ⟨y, lt_regCount.1 (hlen ▸ hy), e⟩)
      exact hregs.trans (same_advance fun e => hp (.inl e))
  · exact ⟨_, (exec_ldVxMem x s).trans
      (checked_reads_range (regCount_pos x) (Nat.lt_succ_of_le hrange)), haltsOn_raiseFatal _ _ s⟩

/-! ## DXYN (44_display.md R191 to R195) -/

section
variable {x y n : Nibble}

theorem decodeWord_drw (c : Config) (x y n : Nibble) :
    decodeWord c (encode (.drw x y n)) = .instr (.drw x y n) := by
  rw [encode, decodeWord, classOf_mkXYN, xOf_mkXYN, yOf_mkXYN, nOf_mkXYN]
  rfl

/-- The state after a DRW that completes. -/
def State.drawn (s : State) (x y n : Nibble) : State :=
  (((s.setFb (drawResult x y n s).1).setV vf (collisionFlag (drawResult x y n s).2)).setRedraw
    true).advance

theorem exec_drw (x y n : Nibble) (s : State) : exec (.drw x y n) s =
    checked (firstFault readCheck (indexAddr s) (spriteHeight n)) (.drw x y n) s
      (s.drawn x y n) := rfl

/-- The pixels that the sprite hits are those that the draw loop toggles. -/
theorem spriteHits_iff {px py : Nat} : SpriteHits x y n s px py ↔
    (px, py) ∈ spriteTargets (s.getV x).toNat (s.getV y).toNat
      (s.bytesAt (indexAddr s) (spriteHeight n)) := by
  rw [mem_spriteTargets, State.length_bytesAt, SpriteHits]
  refine and_congr_right fun _ => and_congr_right fun _ => and_congr_right fun _ =>
    and_congr_right fun _ => and_congr_right fun hlo => and_congr_right fun hhi => ?_
  have hrow : py - (s.getV y).toNat < spriteHeight n := Nat.sub_lt_left_of_lt_add hlo hhi
  rw [s.getD_bytesAt hrow]
  rfl

theorem pixel_drawn_of_hit {px py : Nat} (h : SpriteHits x y n s px py) :
    (s.drawn x y n).pixel px py = !s.pixel px py :=
  (pixel_drawSprite _ _ _ _ px py).trans (if_pos (spriteHits_iff.1 h))

theorem pixel_drawn_of_not_hit {px py : Nat} (h : ¬ SpriteHits x y n s px py) :
    (s.drawn x y n).pixel px py = s.pixel px py :=
  (pixel_drawSprite _ _ _ _ px py).trans (if_neg (mt spriteHits_iff.2 h))

/-- A draw collides exactly if its sprite hits a lit pixel (R194). -/
theorem collision_drawResult : (drawResult x y n s).2 = true ↔
    ∃ px py, SpriteHits x y n s px py ∧ s.pixel px py = true := by
  refine (collision_drawSprite _ _ _ _).trans ⟨?_, ?_⟩
  · rintro ⟨⟨px, py⟩, hp, hlit⟩
    exact ⟨px, py, spriteHits_iff.2 hp, hlit⟩
  · rintro ⟨px, py, hp, hlit⟩
    exact ⟨(px, py), spriteHits_iff.1 hp, hlit⟩

theorem getV_drawn_vf : (s.drawn x y n).getV 0xF = collisionFlag (drawResult x y n s).2 :=
  State.getV_setV_self _ vf _

theorem getV_drawn_of_lit (h : ∃ px py, SpriteHits x y n s px py ∧ s.pixel px py = true) :
    (s.drawn x y n).getV 0xF = 1 := by
  rw [getV_drawn_vf, collision_drawResult.2 h]
  rfl

theorem getV_drawn_of_dark (h : ∀ px py, SpriteHits x y n s px py → s.pixel px py = false) :
    (s.drawn x y n).getV 0xF = 0 := by
  have hmiss : (drawResult x y n s).2 = false := by
    rw [← Bool.not_eq_true, collision_drawResult]
    rintro ⟨px, py, hp, hlit⟩
    exact Bool.noConfusion ((h px py hp).symm.trans hlit)
  rw [getV_drawn_vf, hmiss]
  rfl

/-- The frame of a draw that completes; a pixel outside the grid is hit by no sprite (R193). -/
theorem unchanged_drawn : UnchangedOutside (fun p => p = .pc ∨ p = .redraw ∨ p = .reg 0xF ∨
    ∃ px py, px < 64 ∧ py < 32 ∧ p = .pixel px py) s (s.drawn x y n) := by
  intro p hp
  cases p with
  | pc => exact absurd (.inl rfl) hp
  | redraw => exact absurd (.inr (.inl rfl)) hp
  | reg k =>
    have hk : k ≠ vf := fun e => hp (.inr (.inr (.inl (congrArg Part.reg e))))
    exact (State.getV_setV _ vf k _).trans (if_neg hk)
  | pixel px py =>
    refine pixel_drawn_of_not_hit fun ⟨hx, hy, _⟩ => hp (.inr (.inr (.inr ⟨px, py, hx, hy, rfl⟩)))
  | random => exact ⟨rfl, rfl⟩
  | _ => rfl

end

/-- Settles O54: the check passes or raises its condition, and a completed draw is the state
`drawn`. -/
theorem drawTogglesSprite : Obligations.DrawTogglesSprite := by
  intro s x y n
  refine ⟨decodeWord_drw s.cfg x y n, fun hfit => ?_, fun hn hrange => ?_⟩
  · have hread : spriteHeight n = 0 ∨ indexAddr s + spriteHeight n ≤ 0x1000 := by
      unfold spriteHeight indexAddr
      omega
    exact ⟨s.drawn x y n, (exec_drw x y n s).trans (checked_reads_pass hread),
      fun _ _ _ _ => ⟨pixel_drawn_of_hit, pixel_drawn_of_not_hit⟩, getV_drawn_of_lit,
      getV_drawn_of_dark, rfl, pcMoves_advance rfl, unchanged_drawn⟩
  · have hpast : 0x1000 < indexAddr s + spriteHeight n := by
      unfold spriteHeight indexAddr
      omega
    exact ⟨_, (exec_drw x y n s).trans (checked_reads_range hn hpast), haltsOn_raiseFatal _ _ s⟩

end Sys2Proof.Machine
end

section
/-! PROOFS. Encoding (30_encoding.md R70 to R83): what the decoder answers on a word of each class,
decoding against encoding in both directions, the words that are Unknown, the ignored bits under
STRICT_DISPATCH, and SYS. -/

namespace Sys2Proof

variable {c : Config} {w : Word} {i : Instr} {u : Nibble}

/-! ## Dispatch on the class (R76) -/

theorem decodeWord_class0 (h : classOf w = 0x0) : decodeWord c w = decodeClass0 c w := by
  rw [decodeWord, h]; rfl
theorem decodeWord_class5 (h : classOf w = 0x5) :
    decodeWord c w = ifIgnoredOk c (nOf w) (.seReg (xOf w) (yOf w) (nOf w)) w := by
  rw [decodeWord, h]; rfl
theorem decodeWord_class8 (h : classOf w = 0x8) : decodeWord c w = decodeClass8 w := by
  rw [decodeWord, h]; rfl
theorem decodeWord_class9 (h : classOf w = 0x9) :
    decodeWord c w = ifIgnoredOk c (nOf w) (.sneReg (xOf w) (yOf w) (nOf w)) w := by
  rw [decodeWord, h]; rfl
theorem decodeWord_classE (h : classOf w = 0xE) : decodeWord c w = decodeClassE w := by
  rw [decodeWord, h]; rfl
theorem decodeWord_classF (h : classOf w = 0xF) : decodeWord c w = decodeClassF w := by
  rw [decodeWord, h]; rfl

theorem ignoredBitsOk_of_lax (h : c.strictDispatch = false) : ignoredBitsOk c u = true := by
  simp [ignoredBitsOk, h]

theorem ignoredBitsOk_zero (c : Config) : ignoredBitsOk c 0 = true := by
  simp [ignoredBitsOk]

theorem ifIgnoredOk_of_ok (h : ignoredBitsOk c u = true) : ifIgnoredOk c u i w = .instr i :=
  if_pos h

/-! ## A class-0 word that is neither CLS nor RET (R81) -/

theorem decodeSys_nop (h : c.sysPolicy = .nop) : decodeSys c w = .instr (.sys (nnnOf w)) := by
  rw [decodeSys, h]

theorem decodeSys_unknown (h : c.sysPolicy = .unknown) : decodeSys c w = .unknown w := by
  rw [decodeSys, h]

theorem nnnOf_eq_ofNat (w : Word) : nnnOf w = BitVec.ofNat 12 w.toNat := by
  apply BitVec.eq_of_toNat_eq; rw [toNat_nnnOf, BitVec.toNat_ofNat]

/-- SYS's own condition on `nnn`, as the tests that the decoder makes before it comes to SYS. -/
theorem isClsOrRet_eq_false_iff {nnn : Addr} : isClsOrRet c nnn = false ↔
    ¬ (nnn.setWidth 8 = 0xE0#8 ∧ ignoredBitsOk c (nnn.extractLsb' 8 4) = true) ∧
    ¬ (nnn.setWidth 8 = 0xEE#8 ∧ ignoredBitsOk c (nnn.extractLsb' 8 4) = true) := by
  rw [← Bool.not_eq_true, ← not_or, ← or_and_right]
  simp [isClsOrRet]

theorem decodeWord_sys {nnn : Addr} (h : sysOk c nnn = true) :
    decodeWord c (mkNNN 0x0 nnn) = .instr (.sys nnn) := by
  simp only [sysOk, Bool.and_eq_true, beq_iff_eq, Bool.not_eq_true', isClsOrRet_eq_false_iff] at h
  obtain ⟨hnop, hcls, hret⟩ := h
  rw [decodeWord_class0 (classOf_mkNNN _ _), decodeClass0, nnOf_mkNNN, xOf_mkNNN, if_neg hcls,
    if_neg hret, decodeSys_nop hnop, nnnOf_mkNNN]

/-- What is left for SYS_POLICY to decide. -/
theorem decodeWord_eq_decodeSys (h : classOf w = 0x0)
    (hcls : ∀ u, decodeWord c w ≠ .instr (.cls u)) (hret : ∀ u, decodeWord c w ≠ .instr (.ret u)) :
    decodeWord c w = decodeSys c w := by
  rw [decodeWord_class0 h] at hcls hret ⊢
  have hne0 : ¬ (nnOf w = 0xE0#8 ∧ ignoredBitsOk c (xOf w) = true) :=
    fun hp => hcls _ (if_pos hp)
  have hneE : ¬ (nnOf w = 0xEE#8 ∧ ignoredBitsOk c (xOf w) = true) :=
    fun hp => hret _ ((if_neg hne0).trans (if_pos hp))
  exact (if_neg hne0).trans (if_neg hneE)

/-! ## Decode of encode -/

/-- Settles O1: the fields of an encoded word are the operands, so dispatch on its class and its
selector comes back to the instruction. -/
theorem decodeOfEncode : Obligations.DecodeOfEncode := by
  intro c i hwf
  cases i
  case sys nnn => exact decodeWord_sys hwf
  case cls u | ret u =>
    have hok : ignoredBitsOk c u = true := hwf
    rw [encode, decodeWord_class0 (classOf_mkXNN _ _ _)]
    simp [decodeClass0, hok]
  case seReg x y u =>
    rw [encode, decodeWord_class5 (classOf_mkXYN _ _ _ _), xOf_mkXYN, yOf_mkXYN, nOf_mkXYN]
    exact ifIgnoredOk_of_ok hwf
  case sneReg x y u =>
    rw [encode, decodeWord_class9 (classOf_mkXYN _ _ _ _), xOf_mkXYN, yOf_mkXYN, nOf_mkXYN]
    exact ifIgnoredOk_of_ok hwf
  case ldReg | orReg | andReg | xorReg | addReg | sub | shr | subn | shl =>
    rw [encode, decodeWord_class8 (classOf_mkXYN _ _ _ _)]
    simp [decodeClass8]
  case skp | sknp =>
    rw [encode, decodeWord_classE (classOf_mkXNN _ _ _)]
    simp [decodeClassE]
  case ldVxDt | ldVxK | ldDtVx | ldStVx | addIVx | ldFVx | ldBVx | ldMemVx | ldVxMem =>
    rw [encode, decodeWord_classF (classOf_mkXNN _ _ _)]
    simp [decodeClassF]
  case jp | call | seImm | sneImm | ldImm | addImm | ldI | jpV0 | rnd | drw =>
    simp [encode, decodeWord]

/-! ## Encode of decode -/

/-- A word that decodes to an instruction is that instruction's word. The classes that select
further are those of `decodeClass0_instr` to `ifIgnoredOk_instr`; every other class `k`, the
decoder's branch `h_(k+1)`, is one row, whose word is put together again from its fields. -/
theorem decodeWord_instr (h : decodeWord c w = .instr i) : encode i = w ∧ i.wf c = true := by
  have hnnn := mkNNN_fields w
  have hxnn := mkXNN_fields w
  have hxyn := mkXYN_fields w
  unfold decodeWord at h
  split at h
  case h_1 hk => exact decodeClass0_instr (classOf_eq_of_toNat hk) h
  case h_6 hk | h_10 hk =>
    obtain ⟨rfl, hok⟩ := ifIgnoredOk_instr h
    rw [classOf_eq_of_toNat hk] at hxyn
    exact ⟨hxyn, hok⟩
  case h_9 hk =>
    obtain ⟨he, hwf⟩ := decodeClass8_instr (classOf_eq_of_toNat hk) h
    exact ⟨he, hwf c⟩
  case h_15 hk =>
    obtain ⟨he, hwf⟩ := decodeClassE_instr (classOf_eq_of_toNat hk) h
    exact ⟨he, hwf c⟩
  case h_16 =>
    have hlt := (classOf w).isLt
    obtain ⟨he, hwf⟩ := decodeClassF_instr (classOf_eq_of_toNat (k := 0xF) (by grind)) h
    exact ⟨he, hwf c⟩
  case h_2 hk | h_3 hk | h_11 hk | h_12 hk =>
    cases h
    rw [classOf_eq_of_toNat hk] at hnnn
    exact ⟨hnnn, rfl⟩
  case h_4 hk | h_5 hk | h_7 hk | h_8 hk | h_13 hk =>
    cases h
    rw [classOf_eq_of_toNat hk] at hxnn
    exact ⟨hxnn, rfl⟩
  case h_14 hk =>
    cases h
    rw [classOf_eq_of_toNat hk] at hxyn
    exact ⟨hxyn, rfl⟩

/-- The decoder inverts the encoder, and nothing else decodes. -/
theorem decodeWord_eq_instr_iff :
    decodeWord c w = .instr i ↔ encode i = w ∧ i.wf c = true := by
  refine ⟨decodeWord_instr, ?_⟩
  rintro ⟨rfl, hwf⟩
  exact decodeOfEncode c i hwf

/-- Settles O2: the verdict is an instruction, whose word this is, or Unknown, and then no
instruction has this word, for it would decode to that instruction. -/
theorem encodeOfDecode : Obligations.EncodeOfDecode := by
  intro c w
  cases hd : decodeWord c w with
  | instr i =>
    obtain ⟨he, hwf⟩ := decodeWord_instr hd
    exact .inl ⟨i, rfl, he, hwf⟩
  | unknown v =>
    refine .inr ⟨congrArg _ (decodeWord_unknown hd), fun i hwf he => ?_⟩
    have hi : decodeWord c w = .instr i := decodeWord_eq_instr_iff.2 ⟨he, hwf⟩
    cases hi.symm.trans hd

/-! ## The words that are Unknown (R76, R79) -/

theorem classOf_eq_iff {k : Nibble} : classOf w = k ↔ w.toNat / 4096 = k.toNat := by
  rw [← BitVec.toNat_inj, toNat_classOf]

theorem nOf_eq_iff {k : Nibble} : nOf w = k ↔ w.toNat % 16 = k.toNat := by
  rw [← BitVec.toNat_inj, toNat_nOf]

theorem nnOf_eq_iff {k : Byte} : nnOf w = k ↔ w.toNat % 256 = k.toNat := by
  rw [← BitVec.toNat_inj, toNat_nnOf]

/-- A row of the decoder's list that can answer an instruction only. -/
theorem ite_instr_eq_unknown_iff {p : Prop} [Decidable p] {v : Verdict} :
    (if p then .instr i else v) = .unknown w ↔ ¬ p ∧ v = .unknown w := by
  by_cases hp : p <;> simp [hp]

/-- Only six of the sixteen classes have Unknown words. -/
theorem decodeWord_eq_unknown_iff : decodeWord c w = .unknown w ↔
    (classOf w = 0x0 ∧ decodeClass0 c w = .unknown w) ∨
    ((classOf w = 0x5 ∨ classOf w = 0x9) ∧ ignoredBitsOk c (nOf w) = false) ∨
    (classOf w = 0x8 ∧ decodeClass8 w = .unknown w) ∨
    (classOf w = 0xE ∧ decodeClassE w = .unknown w) ∨
    (classOf w = 0xF ∧ decodeClassF w = .unknown w) := by
  unfold decodeWord
  split
  case h_16 =>
    have hlt := (classOf w).isLt
    have hk : classOf w = 0xF := classOf_eq_of_toNat (k := 0xF) (by grind)
    simp [hk]
  all_goals (rename_i hk; simp [classOf_eq_of_toNat hk, ifIgnoredOk])

theorem decodeClass0_eq_unknown_iff (hs : c.strictDispatch = false)
    (hp : c.sysPolicy = .unknown) :
    decodeClass0 c w = .unknown w ↔ w.toNat % 256 ∉ [0xE0, 0xEE] := by
  simp [decodeClass0, ite_instr_eq_unknown_iff, decodeSys_unknown hp, ignoredBitsOk_of_lax hs,
    nnOf_eq_iff]

theorem decodeClass8_eq_unknown_iff : decodeClass8 w = .unknown w ↔
    w.toNat % 16 ∈ [0x8, 0x9, 0xA, 0xB, 0xC, 0xD, 0xF] := by
  have hrows : decodeClass8 w = .unknown w ↔
      w.toNat % 16 ∉ [0x0, 0x1, 0x2, 0x3, 0x4, 0x5, 0x6, 0x7, 0xE] := by
    simp [decodeClass8, ite_instr_eq_unknown_iff, nOf_eq_iff]
  have hlt : w.toNat % 16 < 16 := Nat.mod_lt _ (by decide)
  simp only [hrows, List.mem_cons, List.not_mem_nil, or_false]
  omega

theorem decodeClassE_eq_unknown_iff : decodeClassE w = .unknown w ↔
    w.toNat % 256 ∉ [0x9E, 0xA1] := by
  simp [decodeClassE, ite_instr_eq_unknown_iff, nnOf_eq_iff]

theorem decodeClassF_eq_unknown_iff : decodeClassF w = .unknown w ↔
    w.toNat % 256 ∉ [0x07, 0x0A, 0x15, 0x18, 0x1E, 0x29, 0x33, 0x55, 0x65] := by
  simp [decodeClassF, ite_instr_eq_unknown_iff, nnOf_eq_iff]

/-- Settles O3: of the six classes with Unknown words, 0x5 and 0x9 have none without
STRICT_DISPATCH, and the others are as listed. -/
theorem unknownOpcodeSpace : Obligations.UnknownOpcodeSpace := by
  intro c w hs hp
  have hok : ¬ ((classOf w = 0x5 ∨ classOf w = 0x9) ∧ ignoredBitsOk c (nOf w) = false) := by
    simp [ignoredBitsOk_of_lax hs]
  rw [decodeWord_eq_unknown_iff, or_iff_right hok, decodeClass0_eq_unknown_iff hs hp,
    decodeClass8_eq_unknown_iff, decodeClassE_eq_unknown_iff, decodeClassF_eq_unknown_iff]
  simp only [classOf_eq_iff]
  rfl

/-! ## The ignored bits (R80) -/

theorem classOf_and_F0FF (w : Word) : classOf (w &&& 0xF0FF#16) = classOf w := by
  conv_lhs => rw [← mkXNN_fields w, mkXNN_and_F0FF, classOf_mkXNN]

theorem nnOf_and_F0FF (w : Word) : nnOf (w &&& 0xF0FF#16) = nnOf w := by
  conv_lhs => rw [← mkXNN_fields w, mkXNN_and_F0FF, nnOf_mkXNN]

theorem classOf_and_F00F (w : Word) : classOf (w &&& 0xF00F#16) = classOf w := by
  conv_lhs => rw [← mkXYN_fields w, mkXYN_and_F00F, classOf_mkXYN]

theorem nOf_and_F00F (w : Word) : nOf (w &&& 0xF00F#16) = nOf w := by
  conv_lhs => rw [← mkXYN_fields w, mkXYN_and_F00F, nOf_mkXYN]

theorem classOf_and_F000 (w : Word) : classOf (w &&& 0xF000#16) = classOf w := by
  conv_lhs => rw [← mkXNN_fields w, mkXNN_and_F000, classOf_mkXNN]

theorem toNat_and_000F (w : Word) : (w &&& 0x000F).toNat = w.toNat % 16 :=
  Nat.and_two_pow_sub_one_eq_mod w.toNat 4

/-- The words of a row whose bits 11:8 dispatch ignores. -/
theorem exists_mkXNN_iff_masked (k : Nibble) (b : Byte) :
    (∃ u, mkXNN k u b = w ∧ ignoredBitsOk c u = true) ↔
      w &&& (if c.strictDispatch then 0xFFFF else 0xF0FF) = mkXNN k 0 b := by
  cases hs : c.strictDispatch
  case false =>
    refine ⟨?_, fun h => ⟨xOf w, ?_, ignoredBitsOk_of_lax hs⟩⟩
    · rintro ⟨u, rfl, -⟩
      exact mkXNN_and_F0FF k u b
    · have hk : classOf w = k := by rw [← classOf_and_F0FF]; exact h ▸ classOf_mkXNN k 0 b
      have hb : nnOf w = b := by rw [← nnOf_and_F0FF]; exact h ▸ nnOf_mkXNN k 0 b
      rw [← hk, ← hb, mkXNN_fields]
  case true =>
    refine ⟨?_, fun h => ⟨0, h.symm.trans (and_FFFF w), ignoredBitsOk_zero c⟩⟩
    rintro ⟨u, rfl, hok⟩
    rw [ignored_zero hs hok]
    exact and_FFFF _

/-- The words of a row whose bits 3:0 dispatch ignores. -/
theorem exists_mkXYN_iff_masked (k : Nibble) :
    (∃ x y u, mkXYN k x y u = w ∧ ignoredBitsOk c u = true) ↔
      w &&& (if c.strictDispatch then 0xF00F else 0xF000) = mkXYN k 0 0 0 := by
  cases hs : c.strictDispatch
  case false =>
    refine ⟨?_, fun h => ⟨xOf w, yOf w, nOf w, ?_, ignoredBitsOk_of_lax hs⟩⟩
    · rintro ⟨x, y, u, rfl, -⟩
      exact mkXYN_and_F000 k x y u
    · have hk : classOf w = k := by rw [← classOf_and_F000]; exact h ▸ classOf_mkXYN k 0 0 0
      rw [← hk, mkXYN_fields]
  case true =>
    refine ⟨?_, fun h => ⟨xOf w, yOf w, 0, ?_, ignoredBitsOk_zero c⟩⟩
    · rintro ⟨x, y, u, rfl, hok⟩
      rw [ignored_zero hs hok]
      exact mkXYN_and_F00F k x y 0
    · have hk : classOf w = k := by rw [← classOf_and_F00F]; exact h ▸ classOf_mkXYN k 0 0 0
      have hn : nOf w = 0 := by rw [← nOf_and_F00F]; exact h ▸ nOf_mkXYN k 0 0 0
      rw [← hk, ← hn, mkXYN_fields]

theorem decodeWord_cls_iff : (∃ u, decodeWord c w = .instr (.cls u)) ↔
    w &&& (if c.strictDispatch then 0xFFFF else 0xF0FF) = 0x00E0 :=
  (exists_congr fun _ => decodeWord_eq_instr_iff).trans (exists_mkXNN_iff_masked 0x0 0xE0)

theorem decodeWord_ret_iff : (∃ u, decodeWord c w = .instr (.ret u)) ↔
    w &&& (if c.strictDispatch then 0xFFFF else 0xF0FF) = 0x00EE :=
  (exists_congr fun _ => decodeWord_eq_instr_iff).trans (exists_mkXNN_iff_masked 0x0 0xEE)

theorem decodeWord_seReg_iff : (∃ x y u, decodeWord c w = .instr (.seReg x y u)) ↔
    w &&& (if c.strictDispatch then 0xF00F else 0xF000) = 0x5000 :=
  (exists_congr fun _ => exists_congr fun _ => exists_congr fun _ =>
    decodeWord_eq_instr_iff).trans (exists_mkXYN_iff_masked 0x5)

theorem decodeWord_sneReg_iff : (∃ x y u, decodeWord c w = .instr (.sneReg x y u)) ↔
    w &&& (if c.strictDispatch then 0xF00F else 0xF000) = 0x9000 :=
  (exists_congr fun _ => exists_congr fun _ => exists_congr fun _ =>
    decodeWord_eq_instr_iff).trans (exists_mkXYN_iff_masked 0x9)

/-- Under STRICT_DISPATCH a word with bits 11:8 set is no CLS. -/
theorem decodeWord_ne_cls_of_strict (hs : c.strictDispatch = true) (hx : w &&& 0x0F00 ≠ 0)
    (u : Nibble) : decodeWord c w ≠ .instr (.cls u) := by
  intro hd
  obtain ⟨rfl, hok⟩ := decodeWord_instr hd
  rw [ignored_zero hs hok] at hx
  exact hx rfl

/-- Under STRICT_DISPATCH a word with bits 11:8 set is no RET. -/
theorem decodeWord_ne_ret_of_strict (hs : c.strictDispatch = true) (hx : w &&& 0x0F00 ≠ 0)
    (u : Nibble) : decodeWord c w ≠ .instr (.ret u) := by
  intro hd
  obtain ⟨rfl, hok⟩ := decodeWord_instr hd
  rw [ignored_zero hs hok] at hx
  exact hx rfl

theorem decodeSys_eq_ite : decodeSys c w =
    if c.sysPolicy = .nop then .instr (.sys (BitVec.ofNat 12 w.toNat)) else .unknown w := by
  cases hp : c.sysPolicy
  case nop => rw [decodeSys_nop hp, nnnOf_eq_ofNat]; rfl
  case unknown => rw [decodeSys_unknown hp]; rfl

/-- Under STRICT_DISPATCH a word with bits 3:0 set has a non-zero ignored field. -/
theorem ifIgnoredOk_nOf_of_strict (hs : c.strictDispatch = true) (hn : w &&& 0x000F ≠ 0) :
    ifIgnoredOk c (nOf w) i w = .unknown w := by
  refine if_neg fun hok => hn ?_
  apply BitVec.eq_of_toNat_eq
  rw [toNat_and_000F, ← toNat_nOf, ignored_zero hs hok]
  rfl

/-- Settles O4: the masks pick out the words of the four rows, and a word that STRICT_DISPATCH
takes from its row is left to SYS_POLICY in class 0x0 and Unknown in classes 0x5 and 0x9. -/
theorem strictDispatchMasks : Obligations.StrictDispatchMasks := by
  intro c w
  refine ⟨decodeWord_cls_iff, decodeWord_ret_iff, decodeWord_seReg_iff, decodeWord_sneReg_iff,
    fun hs hm hx => ?_, fun hs hm hn => ?_⟩
  · have hk : classOf w = 0x0 := by
      rw [← classOf_and_F0FF]
      rcases hm with hm | hm <;> exact hm ▸ rfl
    exact (decodeWord_eq_decodeSys hk (decodeWord_ne_cls_of_strict hs hx)
      (decodeWord_ne_ret_of_strict hs hx)).trans decodeSys_eq_ite
  · rcases hm with hm | hm
    · have hk : classOf w = 0x5 := by rw [← classOf_and_F000]; exact hm ▸ rfl
      exact (decodeWord_class5 hk).trans (ifIgnoredOk_nOf_of_strict hs hn)
    · have hk : classOf w = 0x9 := by rw [← classOf_and_F000]; exact hm ▸ rfl
      exact (decodeWord_class9 hk).trans (ifIgnoredOk_nOf_of_strict hs hn)

end Sys2Proof

namespace Sys2Proof.Machine

/-! ## SYS, and sample words -/

theorem exec_sys (nnn : Addr) (s : State) : exec (.sys nnn) s = .next s.advance := rfl

/-- Settles O5: SYS_POLICY decides the word, and SYS advances PC. -/
theorem sysOnlyAdvances : Obligations.SysOnlyAdvances := by
  intro c w hk hcls hret
  have hd : decodeWord c w = decodeSys c w :=
    decodeWord_eq_decodeSys (classOf_eq_iff.2 hk) hcls hret
  refine ⟨fun hp => hd.trans (decodeSys_unknown hp), fun hp => ⟨?_, fun s => ?_⟩⟩
  · rw [hd, decodeSys_nop hp, nnnOf_eq_ofNat]
  · exact ⟨s.advance, exec_sys _ s, pcMoves_advance rfl,
      fun p hp => same_advance fun e => hp (by simp [e])⟩

/-- Settles O6: each sample word is the encoding of its instruction. -/
theorem sampleWordsDecode : Obligations.SampleWordsDecode :=
  ⟨decodeOfEncode _ (.ldImm 0x0 0x0A) rfl, decodeOfEncode _ (.call 0x210) rfl,
    decodeOfEncode _ (.shl 0x5 0x4) rfl, decodeOfEncode _ (.ldVxMem 0x2) rfl,
    decodeOfEncode _ (.drw 0x1 0x2 0x5) rfl, decodeOfEncode _ (.sknp 0x1) rfl⟩

end Sys2Proof.Machine
end

section
/-! PROOFS. The execution cycle (40_execution_cycle.md R100 to R109): the outcomes of a Cycle, the
frame of each, the events and timers over all of them, and the bound on the return addresses. -/

namespace Sys2Proof.Machine

variable {s t : State} {r : Option Byte} {i : Instr}

/-! ## The live return addresses under every step (R120, R122) -/

/-- The same entries at no greater depth leave no more addresses to bound. -/
theorem stackOk_of_sp_le (hs : s.StackOk) (hsp : t.sp.val ≤ s.sp.val)
    (hstack : t.stack = s.stack) : t.StackOk := by
  intro k hk
  rw [hstack]
  exact hs k (Nat.lt_of_lt_of_le hk hsp)

/-- A push of an address that was fetched keeps the bound. -/
theorem stackOk_of_pushed (hs : s.StackOk) (hpc : s.pc.toNat ≤ 0x0FFE)
    (hsp : t.sp.val = s.sp.val + 1)
    (hstack : ∀ k : Fin 16, t.stack[k] = if k.val = s.sp.val then s.pc else s.stack[k]) :
    t.StackOk := by
  intro k hk
  rw [hstack k]
  by_cases htop : k.val = s.sp.val
  · rw [if_pos htop]
    exact hpc
  · rw [if_neg htop]
    exact hs k (by omega)

/-- A CALL pushes its own address, whose fetch did not fault; no other Cycle adds an entry. -/
theorem step_cycle_stackOk (hs : s.StackOk) (hc : s.NextCycle r) (h : step s = .next t) :
    t.StackOk := by
  rcases callStackUsers s t r hc h with ⟨hsp, hstack⟩ | ⟨nnn, hi, hsp, hstack⟩ | ⟨u, -, hsp, hstack⟩
  · exact stackOk_of_sp_le hs (by rw [hsp]) hstack
  · obtain ⟨-, -, hfetch, -⟩ := hi
    exact stackOk_of_pushed hs (by omega) hsp hstack
  · exact stackOk_of_sp_le hs (by omega) hstack

/-- A failed Start leaves the stack, and a successful one empties it. -/
theorem start_stackOk (rom : RomImage) (hs : s.StackOk) : (start rom s).StackOk := by
  cases rom with
  | unreadable len => exact hs
  | bytes b =>
    rcases Nat.lt_or_ge romMax b.length with hlong | hfits
    · rw [start_of_too_long hlong]
      exact hs
    · rw [start_of_fits hfits]
      exact stackOk_of_empty rfl

theorem tick_stackOk (hs : s.StackOk) : (tick s).StackOk := by
  by_cases hrun : s.status = .running
  · by_cases hst : s.st = 1
    · rw [tick_of_beep hrun hst]
      exact hs
    · rw [tick_of_quiet hrun hst]
      exact hs
  · rw [tick_of_not_running hrun]
    exact hs

/-- Settles O22: a Cycle pushes only a fetched address, a Start empties the stack, and the other
transactions leave it. -/
theorem stepKeepsReturnAddresses : Obligations.StepKeepsReturnAddresses := by
  intro s t hs h
  rcases s.next_cases with ⟨r, hc⟩ | ⟨x, hx, hnc⟩
  · exact step_cycle_stackOk hs hc h
  · rw [step_of_nextIs hx] at h
    cases x with
    | cycle b => exact absurd rfl (hnc b)
    | start rom => cases h; exact start_stackOk (s := takePending s) rom hs
    | tick => cases h; exact tick_stackOk (s := takePending s) hs
    | keyWrite k b => cases h; exact hs
    | stop => cases h; exact hs
    | readDisplay => cases h; exact hs

/-! ## Events and timers over every outcome of a Cycle (R108, R109) -/

/-- Settles O12: each outcome of a Cycle has its events, and a completed instruction has none. -/
theorem cycleEmitsAtMostOne : Obligations.CycleEmitsAtMostOne := by
  intro s t r hc h
  rcases step_cycle_cases hc h with
    ⟨-, rfl⟩ | ⟨-, -, rfl⟩ | ⟨-, -, -, rfl⟩ | ⟨i, -, ⟨hq, -⟩ | ⟨c, rfl⟩⟩
  · exact .inl rfl
  · exact .inr (.inr ⟨_, _, _, rfl⟩)
  · exact .inr (.inl ⟨_, _, rfl⟩)
  · exact .inl hq.events
  · exact .inr (.inr ⟨_, _, _, rfl⟩)

/-- Settles O13: the timer parts of the completed instruction's effects. -/
theorem cycleTimersOnlyByTransfer : Obligations.CycleTimersOnlyByTransfer := by
  intro s t r hc h
  rcases step_cycle_cases hc h with
    ⟨-, rfl⟩ | ⟨-, -, rfl⟩ | ⟨-, -, -, rfl⟩ | ⟨i, hi, ⟨-, he⟩ | ⟨c, rfl⟩⟩
  · exact ⟨.inl rfl, .inl rfl⟩
  · exact ⟨.inl rfl, .inl rfl⟩
  · exact ⟨.inl rfl, .inl rfl⟩
  · have heff := exec_effects he
    constructor
    · rcases heff.dt with hsame | ⟨x, rfl, hdt⟩
      · exact .inl hsame
      · exact .inr ⟨x, hi, hdt⟩
    · rcases heff.st with hsame | ⟨x, rfl, hst⟩
      · exact .inl hsame
      · exact .inr ⟨x, hi, hst⟩
  · exact ⟨.inl rfl, .inl rfl⟩

/-! ## The Cycle of a decoded instruction (R101, R107) -/

theorem endCycle_of_running (h : t.Running) : endCycle s (.next t) = .next t := by
  rw [State.Running] at h
  simp only [endCycle, rollback, h]

theorem endCycle_of_halted {c : FatalCause} (h : t.status = .halted c) :
    endCycle s (.next t) = .next { s with status := t.status, events := t.events } := by
  simp only [endCycle, rollback, h]

/-- A Cycle whose fetch does not fault runs the word at PC. -/
theorem step_of_fetch (hrun : s.Running) (hc : s.NextCycle r) (hpc : s.pc.toNat + 1 ≤ 0xFFF) :
    step s = runWord r (takePending s) s.WordAtPc := by
  have hfetch : (takePending s).pc.toNat + 2 ≤ 0x1000 := Nat.succ_le_succ hpc
  rw [step_of_nextCycle hc, cycle_of_fetch (s := takePending s) r hrun hfetch, s.wordAtPc_eq]
  rfl

theorem step_of_aboutToRun (h : s.AboutToRun r i) :
    step s = endCycle (takePending s) (exec i (beginCycle r (takePending s))) := by
  obtain ⟨hrun, hc, hpc, hd⟩ := h
  rw [step_of_fetch hrun hc hpc]
  exact runWord_of_instr (s := takePending s) hd

/-- Settles O7: the step is the instruction with the end of the Cycle, which keeps a running state
and rolls a halted one back. -/
theorem stepRunsDecodedInstruction : Obligations.StepRunsDecodedInstruction := by
  intro s t r i hi he
  have hexec : exec i (beginCycle r (takePending s)) = .next t := he
  rw [step_of_aboutToRun hi, hexec]
  exact ⟨endCycle_of_running, fun _ => endCycle_of_halted⟩

/-! ## The Cycles that run no instruction (R100, R102, R105) -/

/-- A Fatal condition is its status and its event alone, with or without a word (R232). -/
theorem same_raiseFatal {p : Part} {cause : FatalCause} {word : Option Word}
    (hstatus : p ≠ .status) (hevents : p ≠ .events) : p.Same s (s.raiseFatal cause word) := by
  cases p with
  | status => exact absurd rfl hstatus
  | events => exact absurd rfl hevents
  | random => exact ⟨rfl, rfl⟩
  | _ => rfl

/-- The start of execution clears redraw and takes the random byte, and nothing else. -/
theorem same_beginCycle {p : Part} (hredraw : p ≠ .redraw) (hrandom : p ≠ .random) :
    p.Same s (beginCycle r s) := by
  cases p with
  | redraw => exact absurd rfl hredraw
  | random => exact absurd rfl hrandom
  | _ => rfl

/-- The report of an unknown word moves PC and emits its event, and nothing else. -/
theorem same_unknownOpcode {p : Part} {word : Word} (hpc : p ≠ .pc) (hevents : p ≠ .events) :
    p.Same s (unknownOpcode word s) := by
  cases p with
  | pc => exact absurd rfl hpc
  | events => exact absurd rfl hevents
  | random => exact ⟨rfl, rfl⟩
  | _ => rfl

theorem pcMoves_unknownOpcode_zero {word : Word} (h : s.cfg.unknownPcStep = .zero) :
    PcMoves 0 s (unknownOpcode word s) := by
  simp [PcMoves, unknownOpcode, unknownStep, h]
  omega

theorem pcMoves_unknownOpcode_two {word : Word} (h : s.cfg.unknownPcStep = .two) :
    PcMoves 2 s (unknownOpcode word s) := by
  simp [PcMoves, unknownOpcode, unknownStep, h]

/-- Settles O8: the fetch of one of the two bytes is out of range, so the step is the Fatal
condition alone. -/
theorem fetchFaultHalts : Obligations.FetchFaultHalts := by
  intro s r hrun hc hpc
  have hfault : 0x1000 < (takePending s).pc.toNat + 2 := Nat.succ_le_succ (Nat.succ_le_succ hpc)
  refine ⟨(takePending s).raiseFatal .addressOutOfRange none, ?_, rfl, rfl, rfl, fun p hp => ?_⟩
  · rw [step_of_nextCycle hc, cycle_of_fetchFault (s := takePending s) r hrun hfault]
  · obtain ⟨hstatus, hevents, hpending⟩ : p ≠ .status ∧ p ≠ .events ∧ p ≠ .pending := by
      simpa using hp
    exact (same_takePending hpending).trans (same_raiseFatal hstatus hevents)

/-- Settles O9: the Cycle begins and reports the word, and PC moves by the parameter. -/
theorem unknownOpcodeReported : Obligations.UnknownOpcodeReported := by
  intro s r hrun hc hpc hd
  have hstep : step s = .next (unknownOpcode s.WordAtPc (beginCycle r (takePending s))) := by
    rw [step_of_fetch hrun hc hpc]
    exact runWord_of_unknown (s := takePending s) hd
  refine ⟨_, hstep, rfl, rfl, hrun, ?_, fun p hp => ?_⟩
  · cases hparam : s.cfg.unknownPcStep with
    | zero => exact pcMoves_unknownOpcode_zero (s := beginCycle r (takePending s)) hparam
    | two => exact pcMoves_unknownOpcode_two (s := beginCycle r (takePending s)) hparam
  · obtain ⟨hnotPc, hredraw, hevents, hrandom, hpending⟩ :
        p ≠ .pc ∧ p ≠ .redraw ∧ p ≠ .events ∧ p ≠ .random ∧ p ≠ .pending := by simpa using hp
    exact ((same_takePending hpending).trans (same_beginCycle hredraw hrandom)).trans
      (same_unknownOpcode hnotPc hevents)

/-- Settles O10: the Cycle is taken off the pending list, and that is all. -/
theorem cycleOfStoppedBlock : Obligations.CycleOfStoppedBlock := by
  intro s r hc hstop
  refine ⟨takePending s, ?_, rfl, fun p hp => same_takePending fun e => hp (by simp [e])⟩
  rw [step_of_nextCycle hc, cycle_of_not_running (s := takePending s) r hstop]

end Sys2Proof.Machine
end

section
/-! PROOFS. Control flow (41_control_flow.md R120 to R127): RET and CALL over the call stack, the
jumps, and the skips. -/

namespace Sys2Proof.Machine

variable {s : State}

/-! ## What a write of PC leaves, and the operands (10_state.md R27, 30_encoding.md R72) -/

theorem unchanged_setPc (w : Word) (s : State) : UnchangedBut [.pc] s (s.setPc w) := by
  intro p hp
  cases p with
  | pc => simp at hp
  | random => exact ⟨rfl, rfl⟩
  | _ => rfl

theorem toNat_zext16 (nnn : Addr) : (zext16 nnn).toNat = nnn.toNat :=
  BitVec.toNat_setWidth_of_le (by decide)

theorem toNat_byteToWord (b : Byte) : (byteToWord b).toNat = b.toNat :=
  BitVec.toNat_setWidth_of_le (by decide)

/-- The ignored bits that the statements admit are those that the decoder admits (R80). -/
theorem ignoredBitsOk_of_lax_or_zero {c : Config} {u : Nibble}
    (h : c.strictDispatch = false ∨ u = 0) : ignoredBitsOk c u = true := by
  rcases h with hlax | rfl
  · exact ignoredBitsOk_of_lax hlax
  · exact ignoredBitsOk_zero c

/-! ## JP and JP V0 (R121, R127) -/

theorem exec_jp (nnn : Addr) (s : State) : exec (.jp nnn) s = .next (s.setPc (zext16 nnn)) := rfl

theorem exec_jpV0 (nnn : Addr) (s : State) : exec (.jpV0 nnn) s =
    .next (s.setPc (zext16 nnn + byteToWord (s.getV 0) + 2)) := rfl

/-- Settles O36: the target is `nnn` widened to a word, which keeps its value. -/
theorem jumpSetsPc : Obligations.JumpSetsPc := fun s nnn =>
  ⟨decodeOfEncode s.cfg (.jp nnn) rfl, _, exec_jp nnn s, toNat_zext16 nnn, unchanged_setPc _ s⟩

/-- Settles O41: the sum of the two widened operands and 2 is taken modulo 65536. -/
theorem jumpOffsetAddsTwo : Obligations.JumpOffsetAddsTwo := by
  intro s nnn
  refine ⟨decodeOfEncode s.cfg (.jpV0 nnn) rfl, _, exec_jpV0 nnn s, ?_, unchanged_setPc _ s⟩
  simp [toNat_zext16, toNat_byteToWord]

/-! ## The skips (R123 to R126) -/

section
variable (a b : Byte) (s : State)

theorem pcMoves_skipIf (cond : Bool) : PcMoves (if cond then 4 else 2) s (s.skipIf cond) := by
  cases cond <;> simp [PcMoves]

/-- A skip on equality moves PC as the SE rows say (R123, R125). -/
theorem pcMoves_skipIf_beq : PcMoves (if a = b then 4 else 2) s (s.skipIf (a == b)) := by
  simpa only [beq_iff_eq] using pcMoves_skipIf s (a == b)

/-- A skip on inequality moves PC as the SNE rows say (R124, R126). -/
theorem pcMoves_skipIf_bne : PcMoves (if a = b then 2 else 4) s (s.skipIf (a != b)) := by
  simpa only [bne_iff_ne, ite_not] using pcMoves_skipIf s (a != b)

theorem unchanged_skipIf (cond : Bool) : UnchangedBut [.pc] s (s.skipIf cond) :=
  unchanged_setPc _ s

end

theorem exec_seImm (x : Nibble) (nn : Byte) (s : State) :
    exec (.seImm x nn) s = .next (s.skipIf (s.getV x == nn)) := rfl

theorem exec_sneImm (x : Nibble) (nn : Byte) (s : State) :
    exec (.sneImm x nn) s = .next (s.skipIf (s.getV x != nn)) := rfl

theorem exec_seReg (x y u : Nibble) (s : State) :
    exec (.seReg x y u) s = .next (s.skipIf (s.getV x == s.getV y)) := rfl

theorem exec_sneReg (x y u : Nibble) (s : State) :
    exec (.sneReg x y u) s = .next (s.skipIf (s.getV x != s.getV y)) := rfl

/-- Settles O39: both are a skip, on `V[x]` being `nn` and on its being another value. -/
theorem skipsOnImmediate : Obligations.SkipsOnImmediate := fun s x nn =>
  ⟨decodeOfEncode s.cfg (.seImm x nn) rfl, decodeOfEncode s.cfg (.sneImm x nn) rfl,
    ⟨_, exec_seImm x nn s, pcMoves_skipIf_beq _ _ s, unchanged_skipIf s _⟩,
    ⟨_, exec_sneImm x nn s, pcMoves_skipIf_bne _ _ s, unchanged_skipIf s _⟩⟩

/-- Settles O40: both are a skip, on the two registers being equal and on their being different. -/
theorem skipsOnRegister : Obligations.SkipsOnRegister := by
  intro s x y u hu
  have hok : ignoredBitsOk s.cfg u = true := ignoredBitsOk_of_lax_or_zero hu
  exact ⟨decodeOfEncode s.cfg (.seReg x y u) hok, decodeOfEncode s.cfg (.sneReg x y u) hok,
    ⟨_, exec_seReg x y u s, pcMoves_skipIf_beq _ _ s, unchanged_skipIf s _⟩,
    ⟨_, exec_sneReg x y u s, pcMoves_skipIf_bne _ _ s, unchanged_skipIf s _⟩⟩

/-! ## RET (R120) -/

/-- The state after a RET that completes. -/
def State.returned (s : State) (h : 0 < s.sp.val) : State :=
  { s with sp := ⟨s.sp.val - 1, by omega⟩ }.setPc (s.stack[s.sp.val - 1]'(by omega) + 2)

theorem exec_ret_of_pos (u : Nibble) (h : 0 < s.sp.val) :
    exec (.ret u) s = .next (s.returned h) := by
  rw [exec, execRet, s.pop_of_pos h]
  rfl

theorem exec_ret_of_empty (u : Nibble) (h : s.sp.val = 0) :
    exec (.ret u) s = .next (s.raiseFatal .stackUnderflow (some (encode (.ret u)))) := by
  rw [exec, execRet, s.pop_of_empty h]

theorem returned_pc (h : 0 < s.sp.val) :
    (s.returned h).pc = s.stack[s.sp.val - 1]'(by omega) + 2 := rfl

theorem unchanged_returned (h : 0 < s.sp.val) : UnchangedBut [.pc, .sp] s (s.returned h) := by
  intro p hp
  cases p with
  | pc | sp => simp at hp
  | random => exact ⟨rfl, rfl⟩
  | _ => rfl

/-- Settles O35: the pop takes the top entry, or there is none and it is the Fatal condition
alone. -/
theorem returnPops : Obligations.ReturnPops := by
  intro s u hu
  refine ⟨decodeOfEncode s.cfg (.ret u) (ignoredBitsOk_of_lax_or_zero hu), fun hlive => ?_,
    fun hempty => ?_⟩
  · refine ⟨_, exec_ret_of_pos u hlive, ?_, rfl, unchanged_returned hlive⟩
    rw [returned_pc, BitVec.toNat_add]
    rfl
  · exact ⟨_, exec_ret_of_empty u hempty, haltsOn_raiseFatal _ _ s⟩

/-! ## CALL (R122) -/

/-- The state after a CALL that completes. -/
def State.called (s : State) (nnn : Addr) (h : s.sp.val < 16) : State :=
  { s with stack := s.stack.set s.sp.val s.pc h, sp := ⟨s.sp.val + 1, by omega⟩ }.setPc
    (zext16 nnn)

variable (nnn : Addr)

theorem exec_call_of_lt (h : s.sp.val < 16) :
    exec (.call nnn) s = .next (s.called nnn h) := by
  rw [exec, execCall, s.push_of_lt h]
  rfl

theorem exec_call_of_full (h : s.sp.val = 16) :
    exec (.call nnn) s = .next (s.raiseFatal .stackOverflow (some (encode (.call nnn)))) := by
  rw [exec, execCall, s.push_of_full h]

theorem called_sp (h : s.sp.val < 16) : (s.called nnn h).sp.val = s.sp.val + 1 := rfl

/-- The entry that a CALL pushes is its own address. -/
theorem called_top (h : s.sp.val < 16) : (s.called nnn h).stack[s.sp.val]'h = s.pc :=
  Vector.getElem_set_self h

theorem unchanged_called (h : s.sp.val < 16) :
    UnchangedBut [.pc, .sp, .stackEntry ⟨s.sp.val, h⟩] s (s.called nnn h) := by
  intro p hp
  cases p with
  | pc | sp => simp at hp
  | stackEntry k =>
    have hk : s.sp.val ≠ k.val := fun e => hp (by simp [e])
    exact Vector.getElem_set_ne h k.isLt hk
  | random => exact ⟨rfl, rfl⟩
  | _ => rfl

/-- Settles O37: the push adds the CALL's address, or the stack is full and it is the Fatal
condition alone. -/
theorem callPushes : Obligations.CallPushes := by
  intro s nnn
  refine ⟨decodeOfEncode s.cfg (.call nnn) rfl, fun hroom => ?_, fun hfull => ?_⟩
  · exact ⟨_, exec_call_of_lt nnn hroom, called_top nnn hroom, called_sp nnn hroom,
      toNat_zext16 nnn, unchanged_called nnn hroom⟩
  · exact ⟨_, exec_call_of_full nnn hfull, haltsOn_raiseFatal _ _ s⟩

/-! ## A RET after a CALL -/

/-- Settles O38: the RET finds the entry that the CALL pushed on top, and pops it. -/
theorem returnResumesAfterCall : Obligations.ReturnResumesAfterCall := by
  intro s t u nnn v hroom hcall hdepth hentry
  cases (exec_call_of_lt nnn hroom).symm.trans hcall
  have hsp : u.sp.val = s.sp.val + 1 := congrArg Fin.val hdepth
  have htop : u.stack[u.sp.val - 1]'(by omega) = s.pc := by
    simp only [hsp, Nat.add_sub_cancel]
    exact hentry.trans (called_top nnn hroom)
  have hlive : 0 < u.sp.val := hsp ▸ Nat.succ_pos _
  refine ⟨_, exec_ret_of_pos v hlive, ?_, Fin.ext ?_⟩
  · rw [PcMoves, returned_pc, htop, BitVec.toNat_add]
    rfl
  · exact Nat.sub_eq_of_eq_add hsp

end Sys2Proof.Machine
end

section
/-! PROOFS. Register loads, the ALU and random (42_register_alu.md R140 to R153): the two ends that
these instructions share, a plain register write and a write of a result and a flag, and the values
they write. -/

namespace Sys2Proof.Machine

variable {s : State} {x : Nibble}

/-! ## The plain register write -/

theorem same_setV {p : Part} (b : Byte) (hp : p ≠ .reg x) : p.Same s (s.setV x b) := by
  cases p with
  | reg y => exact (s.getV_setV x y b).trans (if_neg fun e => hp (congrArg Part.reg e))
  | random => exact ⟨rfl, rfl⟩
  | _ => rfl

theorem unchanged_setV_advance (x : Nibble) (b : Byte) (s : State) :
    UnchangedBut [.reg x, .pc] s (s.setV x b).advance := by
  intro p hp
  obtain ⟨hreg, hpc⟩ : p ≠ .reg x ∧ p ≠ .pc := by simpa using hp
  exact (same_setV b hreg).trans (same_advance hpc)

theorem getV_setV_advance (x : Nibble) (b : Byte) (s : State) :
    (s.setV x b).advance.getV x = b :=
  s.getV_setV_self x b

theorem exec_ldImm (x : Nibble) (nn : Byte) (s : State) :
    exec (.ldImm x nn) s = .next (s.setV x nn).advance := rfl

theorem exec_ldReg (x y : Nibble) (s : State) :
    exec (.ldReg x y) s = .next (s.setV x (s.getV y)).advance := rfl

theorem exec_addImm (x : Nibble) (nn : Byte) (s : State) :
    exec (.addImm x nn) s = .next (s.setV x (s.getV x + nn)).advance := rfl

theorem exec_orReg (x y : Nibble) (s : State) :
    exec (.orReg x y) s = .next (s.setV x (s.getV x ||| s.getV y)).advance := rfl

theorem exec_andReg (x y : Nibble) (s : State) :
    exec (.andReg x y) s = .next (s.setV x (s.getV x &&& s.getV y)).advance := rfl

theorem exec_xorReg (x y : Nibble) (s : State) :
    exec (.xorReg x y) s = .next (s.setV x (s.getV x ^^^ s.getV y)).advance := rfl

theorem exec_rnd (x : Nibble) (nn : Byte) (s : State) :
    exec (.rnd x nn) s = .next (s.setV x (rand8 s &&& nn)).advance := rfl

/-- Settles O42: both are the plain register write, of the immediate and of `V[y]`. -/
theorem loadsIntoRegister : Obligations.LoadsIntoRegister := fun s x y nn =>
  ⟨decodeOfEncode s.cfg (.ldImm x nn) rfl, decodeOfEncode s.cfg (.ldReg x y) rfl,
    ⟨_, exec_ldImm x nn s, getV_setV_advance x _ s, pcMoves_advance rfl,
      unchanged_setV_advance x _ s⟩,
    ⟨_, exec_ldReg x y s, getV_setV_advance x _ s, pcMoves_advance rfl,
      unchanged_setV_advance x _ s⟩⟩

/-- Settles O43: the plain register write of the sum, which a byte takes modulo 256. -/
theorem addImmediateNoFlag : Obligations.AddImmediateNoFlag := by
  intro s x nn
  refine ⟨decodeOfEncode s.cfg (.addImm x nn) rfl, _, exec_addImm x nn s, ?_, pcMoves_advance rfl,
    unchanged_setV_advance x _ s⟩
  rw [getV_setV_advance, BitVec.toNat_add]

/-- Settles O44: each is the plain register write of a byte that is given bit by bit. -/
theorem bitwiseNoFlag : Obligations.BitwiseNoFlag := by
  intro s x y
  refine ⟨decodeOfEncode s.cfg (.orReg x y) rfl, decodeOfEncode s.cfg (.andReg x y) rfl,
    decodeOfEncode s.cfg (.xorReg x y) rfl,
    ⟨_, exec_orReg x y s, pcMoves_advance rfl, unchanged_setV_advance x _ s, fun k => ?_⟩,
    ⟨_, exec_andReg x y s, pcMoves_advance rfl, unchanged_setV_advance x _ s, fun k => ?_⟩,
    ⟨_, exec_xorReg x y s, pcMoves_advance rfl, unchanged_setV_advance x _ s, fun k => ?_⟩⟩
  · rw [getV_setV_advance, BitVec.getLsbD_or]
  · rw [getV_setV_advance, BitVec.getLsbD_and]
  · rw [getV_setV_advance, BitVec.getLsbD_xor]

/-! ## Random (R151, 40_execution_cycle.md R106) -/

/-- The Cycle's random byte is the host's, where its transaction states one. -/
theorem randIn_eq_none_or_rand8 (s : State) : s.randIn = none ∨ s.randIn = some (rand8 s) := by
  cases h : s.randIn with
  | none => exact .inl rfl
  | some r => simp [rand8, h]

/-- Settles O48: the plain register write of the random byte, masked bit by bit. -/
theorem randomIsMasked : Obligations.RandomIsMasked := by
  intro s x nn
  refine ⟨decodeOfEncode s.cfg (.rnd x nn) rfl, _, rand8 s, exec_rnd x nn s,
    randIn_eq_none_or_rand8 s, fun k => ?_, pcMoves_advance rfl, unchanged_setV_advance x _ s⟩
  rw [getV_setV_advance, BitVec.getLsbD_and]

/-! ## The write of a result and a flag (R153) -/

theorem same_writeResultAndFlag {p : Part} (r f : Byte) (hreg : p ≠ .reg x)
    (hvf : p ≠ .reg 0xF) : p.Same s (writeResultAndFlag s x r f) := by
  unfold writeResultAndFlag
  split
  · exact (same_setV r hreg).trans (same_setV f hvf)
  · exact (same_setV f hvf).trans (same_setV r hreg)

theorem unchanged_writeResultAndFlag_advance (x : Nibble) (r f : Byte) (s : State) :
    UnchangedBut [.reg x, .reg 0xF, .pc] s (writeResultAndFlag s x r f).advance := by
  intro p hp
  obtain ⟨hreg, hvf, hpc⟩ : p ≠ .reg x ∧ p ≠ .reg 0xF ∧ p ≠ .pc := by simpa using hp
  exact (same_writeResultAndFlag r f hreg hvf).trans (same_advance hpc)

/-- The two writes leave the result and the flag, or for VF as the destination the later one. -/
theorem resultAndFlag_writeResultAndFlag_advance {r f : Byte} {m n : Nat} (hr : r.toNat = m)
    (hf : f.toNat = n) : ResultAndFlag x m n s (writeResultAndFlag s x r f).advance := by
  subst hr hf
  have hvf : (0xF : Nibble) = vf := rfl
  rw [ResultAndFlag, hvf]
  split
  case isTrue hx =>
    subst hx
    cases horder : s.cfg.flagOrder <;> simp [getV_writeResultAndFlag, horder]
  case isFalse hx =>
    simp [getV_writeResultAndFlag, hx, Ne.symm hx]

/-- What an instruction that ends in the shared write does, once its result and its flag are known
as numbers. -/
theorem exec_of_finishFlag {i : Instr} {r f : Byte} {m n : Nat}
    (h : exec i s = finishFlag s x r f) (hr : r.toNat = m) (hf : f.toNat = n) :
    ∃ t, exec i s = .next t ∧ ResultAndFlag x m n s t ∧ PcMoves 2 s t ∧
      UnchangedBut [.reg x, .reg 0xF, .pc] s t :=
  ⟨_, h, resultAndFlag_writeResultAndFlag_advance hr hf,
    pcMoves_advance (writeResultAndFlag_pc s x r f), unchanged_writeResultAndFlag_advance x r f s⟩

theorem exec_addReg (x y : Nibble) (s : State) : exec (.addReg x y) s =
    finishFlag s x (s.getV x + s.getV y) (addFlag (s.getV x) (s.getV y)) := rfl

theorem exec_sub (x y : Nibble) (s : State) : exec (.sub x y) s =
    finishFlag s x (s.getV x - s.getV y) (subFlag (s.getV x) (s.getV y)) := rfl

theorem exec_subn (x y : Nibble) (s : State) : exec (.subn x y) s =
    finishFlag s x (s.getV y - s.getV x) (subnFlag (s.getV x) (s.getV y)) := rfl

theorem exec_shr (x y : Nibble) (s : State) : exec (.shr x y) s =
    finishFlag s x (s.getV y >>> 1) (shrFlag (s.getV y)) := rfl

theorem exec_shl (x y : Nibble) (s : State) : exec (.shl x y) s =
    finishFlag s x (s.getV y <<< 1) (shlFlag (s.getV y)) := rfl

/-! ## The results and the flags as numbers (R146 to R150) -/

section
variable (a b : Byte)

theorem toNat_bitFlag (c : Bool) : (bitFlag c).toNat = if c then 1 else 0 := by
  cases c <;> rfl

theorem toNat_addFlag : (addFlag a b).toNat = if a.toNat + b.toNat > 255 then 1 else 0 := by
  simp [addFlag, toNat_bitFlag]

theorem toNat_subFlag : (subFlag a b).toNat = if b.toNat > a.toNat then 0 else 1 := by
  simp only [subFlag, toNat_bitFlag, Bool.not_eq_true', decide_eq_false_iff_not, ite_not]

/-- SUBN's flag is SUB's, of the exchanged operands. -/
theorem toNat_subnFlag : (subnFlag a b).toNat = if a.toNat > b.toNat then 0 else 1 :=
  toNat_subFlag b a

/-- The difference of two bytes is that of their values, taken modulo 256 (R152). -/
theorem toNat_sub_eq_int : (a - b).toNat = (((a.toNat : Int) - b.toNat) % 256).toNat := by
  have ha := a.isLt
  have hb := b.isLt
  rw [BitVec.toNat_sub]
  omega

theorem toNat_ushiftRight_one : (b >>> 1).toNat = b.toNat / 2 := by
  rw [BitVec.toNat_ushiftRight, Nat.shiftRight_one]

theorem toNat_shiftLeft_one : (b <<< 1).toNat = b.toNat * 2 % 256 := by
  rw [BitVec.toNat_shiftLeft, Nat.shiftLeft_eq, pow_one]

theorem toNat_shrFlag : (shrFlag b).toNat = b.toNat % 2 := by
  rw [shrFlag, BitVec.toNat_and]
  exact Nat.and_one_is_mod _

/-- The mask 0x80 leaves the top bit in its place, and that bit is set from 128 on. -/
theorem toNat_shlFlag : (shlFlag b).toNat = if b.toNat ≥ 128 then 0x80 else 0 := by
  have hb := b.isLt
  have hmask : (shlFlag b).toNat = (b.toNat.testBit 7).toNat * 2 ^ 7 :=
    (BitVec.toNat_and b 0x80).trans (Nat.and_two_pow _ 7)
  rw [hmask, Nat.testBit_eq_decide_div_mod_eq]
  split
  · rw [decide_eq_true (by omega)]
    rfl
  · rw [decide_eq_false (by omega)]
    rfl

end

/-- Settles O45: the sum and the carry are what the shared write leaves. -/
theorem addSetsCarry : Obligations.AddSetsCarry := fun s x y =>
  ⟨decodeOfEncode s.cfg (.addReg x y) rfl,
    exec_of_finishFlag (exec_addReg x y s) (BitVec.toNat_add _ _) (toNat_addFlag _ _)⟩

/-- Settles O46: the difference and the inverted borrow are what the shared write leaves; SUBN is
SUB with the operands exchanged. -/
theorem subtractSetsNotBorrow : Obligations.SubtractSetsNotBorrow := fun s x y =>
  ⟨decodeOfEncode s.cfg (.sub x y) rfl, decodeOfEncode s.cfg (.subn x y) rfl,
    exec_of_finishFlag (exec_sub x y s) (toNat_sub_eq_int _ _) (toNat_subFlag _ _),
    exec_of_finishFlag (exec_subn x y s) (toNat_sub_eq_int _ _) (toNat_subnFlag _ _)⟩

/-- Settles O47: `V[y]` shifted, with the bit shifted out for SHR and the masked top bit for SHL,
are what the shared write leaves. -/
theorem shiftsTakeVy : Obligations.ShiftsTakeVy := fun s x y =>
  ⟨decodeOfEncode s.cfg (.shr x y) rfl, decodeOfEncode s.cfg (.shl x y) rfl,
    exec_of_finishFlag (exec_shr x y s) (toNat_ushiftRight_one _) (toNat_shrFlag _),
    exec_of_finishFlag (exec_shl x y s) (toNat_shiftLeft_one _) (toNat_shlFlag _)⟩

end Sys2Proof.Machine
end

section
/-! PROOFS. Index and memory (43_index_memory.md R170 to R172): the three instructions that load the
index share one end, a write of `I` and the advance of PC, and differ in the value they write. -/

namespace Sys2Proof.Machine

variable {s : State}

/-! ## The write of the index -/

theorem same_setI {p : Part} (w : Word) (hp : p ≠ .index) : p.Same s (s.setI w) := by
  cases p with
  | index => exact absurd rfl hp
  | random => exact ⟨rfl, rfl⟩
  | _ => rfl

theorem unchanged_setI_advance (w : Word) (s : State) :
    UnchangedBut [.index, .pc] s (s.setI w).advance := by
  intro p hp
  obtain ⟨hindex, hpc⟩ : p ≠ .index ∧ p ≠ .pc := by simpa using hp
  exact (same_setI w hindex).trans (same_advance hpc)

/-- What an instruction that ends in the write of the index does, once the value it writes is known
as a number. -/
theorem exec_of_setI_advance {i : Instr} {w : Word} {n : Nat}
    (h : exec i s = .next (s.setI w).advance) (hw : w.toNat = n) :
    ∃ t, exec i s = .next t ∧ t.i.toNat = n ∧ PcMoves 2 s t ∧ UnchangedBut [.index, .pc] s t :=
  ⟨_, h, hw, pcMoves_advance rfl, unchanged_setI_advance w s⟩

theorem exec_ldI (nnn : Addr) (s : State) :
    exec (.ldI nnn) s = .next (s.setI (zext16 nnn)).advance := rfl

theorem exec_addIVx (x : Nibble) (s : State) :
    exec (.addIVx x) s = .next (s.setI (s.i + byteToWord (s.getV x))).advance := rfl

theorem exec_ldFVx (x : Nibble) (s : State) :
    exec (.ldFVx x) s = .next (s.setI (glyphAddr (s.getV x))).advance := rfl

/-! ## The values as numbers -/

theorem toNat_add_byteToWord (w : Word) (b : Byte) :
    (w + byteToWord b).toNat = (w.toNat + b.toNat) % 65536 := by
  rw [BitVec.toNat_add, toNat_byteToWord]

/-- Five times a byte is at most 1275, so the glyph's address does not wrap. -/
theorem toNat_glyphAddr (b : Byte) : (glyphAddr b).toNat = b.toNat * 5 := by
  have hb := b.isLt
  have hlt : b.toNat * 5 < 65536 := by omega
  rw [glyphAddr, BitVec.toNat_mul, toNat_byteToWord]
  exact Nat.mod_eq_of_lt hlt

/-- Settles O49: each is the write of the index, of the address, of the sum modulo 65536 and of the
glyph's address, which takes all eight bits of `V[x]`. -/
theorem indexLoads : Obligations.IndexLoads := fun s x nnn =>
  ⟨decodeOfEncode s.cfg (.ldI nnn) rfl, decodeOfEncode s.cfg (.addIVx x) rfl,
    decodeOfEncode s.cfg (.ldFVx x) rfl,
    exec_of_setI_advance (exec_ldI nnn s) (toNat_zext16 nnn),
    exec_of_setI_advance (exec_addIVx x s) (toNat_add_byteToWord s.i (s.getV x)),
    exec_of_setI_advance (exec_ldFVx x s) (toNat_glyphAddr (s.getV x))⟩

end Sys2Proof.Machine
end

section
/-! PROOFS. Display (44_display.md R190 to R196): a clear-screen is a write of the framebuffer and
of the redraw flag, and a draw toggles the same pixels when it is run again. -/

namespace Sys2Proof.Machine

variable {s : State}

/-! ## The writes of the framebuffer and the redraw flag (R33 to R36) -/

/-- The framebuffer has no lit pixel outside the grid (R35). -/
theorem Rows.pixel_of_outside {px py : Nat} (fb : Rows) (h : 64 ≤ px ∨ 32 ≤ py) :
    Rows.pixel fb px py = false := by
  rcases h with hx | hy
  · unfold Rows.pixel
    split
    · exact BitVec.getLsbD_of_ge _ px hx
    · rfl
  · exact dif_neg (Nat.not_lt_of_le hy)

/-- A write of the framebuffer changes pixels of the grid alone. -/
theorem same_setFb {p : Part} (rows : Rows)
    (hp : ¬ ∃ px py, px < 64 ∧ py < 32 ∧ p = .pixel px py) : p.Same s (s.setFb rows) := by
  cases p with
  | pixel px py =>
    have hgrid : ¬ (px < 64 ∧ py < 32) := fun ⟨hx, hy⟩ => hp ⟨px, py, hx, hy, rfl⟩
    have hout : 64 ≤ px ∨ 32 ≤ py := by omega
    exact (Rows.pixel_of_outside rows hout).trans (Rows.pixel_of_outside s.fb hout).symm
  | random => exact ⟨rfl, rfl⟩
  | _ => rfl

theorem same_setRedraw {p : Part} (b : Bool) (hp : p ≠ .redraw) : p.Same s (s.setRedraw b) := by
  cases p with
  | redraw => exact absurd rfl hp
  | random => exact ⟨rfl, rfl⟩
  | _ => rfl

/-! ## CLS (R190) -/

/-- Where CLS_SETS_REDRAW is false, the flag is written with the value it has. -/
theorem exec_cls (u : Nibble) (s : State) : exec (.cls u) s = .next
    ((s.setFb clearRows).setRedraw (if s.cfg.clsSetsRedraw then true else s.redraw)).advance := by
  rw [exec, execCls]
  cases s.cfg.clsSetsRedraw <;> rfl

/-- Settles O53: CLS is the write of a dark framebuffer and of the redraw flag. -/
theorem clearScreen : Obligations.ClearScreen := by
  intro s u hu
  refine ⟨decodeOfEncode s.cfg (.cls u) (ignoredBitsOk_of_lax_or_zero hu), _, exec_cls u s,
    fun _ => pixel_clearRows _ _, rfl, pcMoves_advance rfl, fun p hp => ?_⟩
  simp only [not_or] at hp
  obtain ⟨hpc, hredraw, hgrid⟩ := hp
  exact ((same_setFb clearRows hgrid).trans (same_setRedraw _ hredraw)).trans (same_advance hpc)

/-! ## DRW run twice (R196) -/

section
variable {x y n : Nibble} {px py : Nat}

/-- A sprite that ends below 0x1000 is drawn (R53, R55). -/
theorem exec_drw_of_readable (h : n.toNat = 0 ∨ s.i.toNat + n.toNat - 1 < 0x1000) :
    exec (.drw x y n) s = .next (s.drawn x y n) := by
  have hread : spriteHeight n = 0 ∨ indexAddr s + spriteHeight n ≤ 0x1000 := by
    unfold spriteHeight indexAddr
    omega
  exact (exec_drw x y n s).trans (checked_reads_pass hread)

/-- A draw writes no register but VF. -/
theorem getV_drawn_of_ne {k : Nibble} (hk : k ≠ 0xF) : (s.drawn x y n).getV k = s.getV k :=
  (State.getV_setV _ vf k _).trans (if_neg hk)

/-- A draw leaves its coordinates and its sprite, so that it hits the same pixels again. -/
theorem spriteHits_drawn (hx : x ≠ 0xF) (hy : y ≠ 0xF) :
    SpriteHits x y n (s.drawn x y n) px py ↔ SpriteHits x y n s px py := by
  unfold SpriteHits
  rw [getV_drawn_of_ne hx, getV_drawn_of_ne hy]
  rfl

/-- A pixel that the sprite hits is inverted twice, and another one never (R191). -/
theorem pixel_drawn_drawn (hx : x ≠ 0xF) (hy : y ≠ 0xF) :
    ((s.drawn x y n).drawn x y n).pixel px py = s.pixel px py := by
  by_cases hit : SpriteHits x y n s px py
  · rw [pixel_drawn_of_hit ((spriteHits_drawn hx hy).2 hit), pixel_drawn_of_hit hit, Bool.not_not]
  · rw [pixel_drawn_of_not_hit (mt (spriteHits_drawn hx hy).1 hit), pixel_drawn_of_not_hit hit]

/-- VF says whether the sprite hits a lit pixel (R194). -/
theorem getV_drawn_eq_one_iff : (s.drawn x y n).getV 0xF = 1 ↔
    ∃ px py, SpriteHits x y n s px py ∧ s.pixel px py = true := by
  rw [getV_drawn_vf, ← collision_drawResult]
  cases (drawResult x y n s).2 <;> decide

/-- The pixels that the second draw finds lit are those that the first one found dark. -/
theorem hit_and_lit_drawn_iff (hx : x ≠ 0xF) (hy : y ≠ 0xF) :
    (SpriteHits x y n (s.drawn x y n) px py ∧ (s.drawn x y n).pixel px py = true) ↔
      SpriteHits x y n s px py ∧ s.pixel px py = false := by
  rw [spriteHits_drawn hx hy]
  refine and_congr_right fun hit => ?_
  rw [pixel_drawn_of_hit hit, Bool.not_eq_true']

end

/-- Settles O55: both draws complete, for the first one leaves the index; the pixels and VF are
those of a state drawn twice. -/
theorem drawTwiceRestores : Obligations.DrawTwiceRestores := by
  intro s t x y n hx hy hfit he
  obtain rfl : s.drawn x y n = t := by simpa [exec_drw_of_readable hfit] using he
  refine ⟨(s.drawn x y n).drawn x y n, exec_drw_of_readable hfit,
    fun _ _ => pixel_drawn_drawn hx hy, ?_⟩
  rw [getV_drawn_eq_one_iff]
  exact exists_congr fun _ => exists_congr fun _ => hit_and_lit_drawn_iff hx hy

end Sys2Proof.Machine
end

section
/-! PROOFS. Keypad and timers (45_keypad_timers.md R210 to R215): the two key skips share one end, a
clear of the latch and a skip; the timer transfers and the key wait are writes and an advance. -/

namespace Sys2Proof.Machine

variable {s t u : State} {x : Nibble} {k : Fin 16}

/-! ## Frames of writes in a row -/

/-- Two updates in a row change no more than the parts of the one and those of the other. -/
theorem UnchangedBut.trans {ps qs : List Part} (hst : UnchangedBut ps s t)
    (htu : UnchangedBut qs t u) : UnchangedBut (ps ++ qs) s u := by
  intro p hp
  obtain ⟨hps, hqs⟩ : p ∉ ps ∧ p ∉ qs := by simpa using hp
  exact (hst p hps).trans (htu p hqs)

theorem unchanged_setKey (k : Fin 16) (b : Bool) (s : State) :
    UnchangedBut [.key k] s (s.setKey k b) :=
  fun _ hp => same_setKey b fun e => hp (List.mem_singleton.2 e)

theorem unchanged_setV (x : Nibble) (b : Byte) (s : State) :
    UnchangedBut [.reg x] s (s.setV x b) :=
  fun _ hp => same_setV b fun e => hp (List.mem_singleton.2 e)

theorem unchanged_setDt (b : Byte) (s : State) : UnchangedBut [.dt] s (s.setDt b) := by
  intro p hp
  cases p with
  | dt => simp at hp
  | random => exact ⟨rfl, rfl⟩
  | _ => rfl

theorem unchanged_setSt (b : Byte) (s : State) : UnchangedBut [.st] s (s.setSt b) := by
  intro p hp
  cases p with
  | st => simp at hp
  | random => exact ⟨rfl, rfl⟩
  | _ => rfl

theorem unchanged_advance (s : State) : UnchangedBut [.pc] s s.advance := unchanged_setPc _ s

/-! ## The latches and the key operand (R32, R210) -/

theorem getKey_setKey_self (k : Fin 16) (b : Bool) (s : State) : (s.setKey k b).getKey k = b :=
  (s.getKey_setKey k k b).trans (if_pos rfl)

/-- Clearing a clear latch has no effect. -/
theorem setKey_false_of_clear (h : s.getKey k = false) : s.setKey k false = s := by
  rw [← h, State.setKey, State.getKey, Vector.set_getElem_self]

theorem keyOperand_of_toNat_eq {b : Byte} (h : b.toNat = k.val) : keyOperand b = some k := by
  have hlt : b.toNat < 16 := h ▸ k.isLt
  exact (dif_pos hlt).trans (congrArg some (Fin.ext h))

theorem keyOperand_of_gt {b : Byte} (h : 0x0F < b.toNat) : keyOperand b = none :=
  dif_neg (Nat.not_lt_of_le h)

/-! ## SKP and SKNP (R210, R211) -/

/-- The two branches of a key skip are one clear of the latch, with their two ways to skip. -/
theorem ite_clearKey_skipIf (a b : Bool) (k : Fin 16) (s : State) :
    (if s.getKey k then (s.setKey k false).skipIf a else s.skipIf b) =
      (s.setKey k false).skipIf (if s.getKey k then a else b) := by
  split
  case isTrue => rfl
  case isFalse hclear => rw [setKey_false_of_clear (Bool.eq_false_of_not_eq_true hclear)]

/-- SKP clears its latch and skips by what it was. -/
theorem exec_skp_of_key (h : (s.getV x).toNat = k.val) :
    exec (.skp x) s = .next ((s.setKey k false).skipIf (s.getKey k)) := by
  rw [exec, execSkp, keyOperand_of_toNat_eq h]
  refine (congrArg Host.Outcome.next (ite_clearKey_skipIf true false k s)).trans ?_
  cases s.getKey k <;> rfl

/-- SKNP clears its latch as SKP does, and skips by the opposite. -/
theorem exec_sknp_of_key (h : (s.getV x).toNat = k.val) :
    exec (.sknp x) s = .next ((s.setKey k false).skipIf (!s.getKey k)) := by
  rw [exec, execSknp, keyOperand_of_toNat_eq h]
  refine (congrArg Host.Outcome.next (ite_clearKey_skipIf false true k s)).trans ?_
  cases s.getKey k <;> rfl

theorem exec_skp_of_gt (h : 0x0F < (s.getV x).toNat) : exec (.skp x) s =
    .next (s.raiseFatal .keyIndexOutOfRange (some (encode (.skp x)))) := by
  rw [exec, execSkp, keyOperand_of_gt h]

theorem exec_sknp_of_gt (h : 0x0F < (s.getV x).toNat) : exec (.sknp x) s =
    .next (s.raiseFatal .keyIndexOutOfRange (some (encode (.sknp x)))) := by
  rw [exec, execSknp, keyOperand_of_gt h]

/-- What an instruction that ends in the clear of a latch and a skip does. -/
theorem exec_of_clearKey_skipIf {i : Instr} {cond : Bool} {d : Nat}
    (h : exec i s = .next ((s.setKey k false).skipIf cond)) (hd : (if cond then 4 else 2) = d) :
    ∃ t, exec i s = .next t ∧ t.getKey k = false ∧ PcMoves d s t ∧
      UnchangedBut [.key k, .pc] s t :=
  ⟨_, h, getKey_setKey_self k false s, hd ▸ pcMoves_skipIf (s.setKey k false) cond,
    (unchanged_setKey k false s).trans (unchanged_skipIf _ cond)⟩

/-- Settles O56: both are the clear of the latch and a skip, on its having been set and on its
having been clear, or the value names no key and it is the Fatal condition alone. -/
theorem keySkipsClearLatch : Obligations.KeySkipsClearLatch := by
  intro s x
  refine ⟨decodeOfEncode s.cfg (.skp x) rfl, decodeOfEncode s.cfg (.sknp x) rfl,
    fun k hk => ⟨?skp, ?sknp⟩, fun hgt => ⟨?skpFault, ?sknpFault⟩⟩
  case skp => exact exec_of_clearKey_skipIf (exec_skp_of_key hk) rfl
  case sknp => exact exec_of_clearKey_skipIf (exec_sknp_of_key hk) (by cases s.getKey k <;> rfl)
  case skpFault => exact ⟨_, exec_skp_of_gt hgt, haltsOn_raiseFatal _ _ s⟩
  case sknpFault => exact ⟨_, exec_sknp_of_gt hgt, haltsOn_raiseFatal _ _ s⟩

/-! ## The timer transfers (R212, R214, R215) -/

theorem exec_ldVxDt (x : Nibble) (s : State) :
    exec (.ldVxDt x) s = .next (s.setV x s.dt).advance := rfl

theorem exec_ldDtVx (x : Nibble) (s : State) :
    exec (.ldDtVx x) s = .next (s.setDt (s.getV x)).advance := rfl

theorem exec_ldStVx (x : Nibble) (s : State) :
    exec (.ldStVx x) s = .next (s.setSt (s.getV x)).advance := rfl

/-- Settles O57: each is the write of one register or timer, whose frame has the events in it. -/
theorem timerTransfers : Obligations.TimerTransfers := fun s x =>
  ⟨decodeOfEncode s.cfg (.ldVxDt x) rfl, decodeOfEncode s.cfg (.ldDtVx x) rfl,
    decodeOfEncode s.cfg (.ldStVx x) rfl,
    ⟨_, exec_ldVxDt x s, getV_setV_advance x _ s, pcMoves_advance rfl,
      unchanged_setV_advance x _ s⟩,
    ⟨_, exec_ldDtVx x s, rfl, pcMoves_advance rfl,
      (unchanged_setDt _ s).trans (unchanged_advance _)⟩,
    ⟨_, exec_ldStVx x s, rfl, pcMoves_advance rfl,
      (unchanged_setSt _ s).trans (unchanged_advance _)⟩⟩

/-! ## LD Vx, K (R213) -/

theorem exec_ldVxK_of_firstKey (h : s.firstKey = some k) : exec (.ldVxK x) s =
    .next ((s.setV x (BitVec.ofNat 8 k.val)).setKey k false).advance := by
  rw [exec, execLdVxK, h]

theorem exec_ldVxK_of_none (h : s.firstKey = none) : exec (.ldVxK x) s = .next s := by
  rw [exec, execLdVxK, h]

/-- A key's number fits in a byte. -/
theorem toNat_keyByte (k : Fin 16) : (BitVec.ofNat 8 k.val).toNat = k.val := by
  rw [BitVec.toNat_ofNat]
  omega

/-- The key wait leaves the key's number in its register. -/
theorem toNat_getV_keyTaken (x : Nibble) (k : Fin 16) (s : State) :
    (((s.setV x (BitVec.ofNat 8 k.val)).setKey k false).advance.getV x).toNat = k.val :=
  (congrArg BitVec.toNat (s.getV_setV_self x _)).trans (toNat_keyByte k)

/-- Settles O58: the key found first is the least set one, and where none is set none is found. -/
theorem keyWaitTakesLeast : Obligations.KeyWaitTakesLeast := by
  intro s x
  refine ⟨decodeOfEncode s.cfg (.ldVxK x) rfl, fun k hset hleast => ?_, fun hclear => ?_⟩
  · have hfirst : s.firstKey = some k := s.firstKey_eq_some.2 ⟨hset, hleast⟩
    exact ⟨_, exec_ldVxK_of_firstKey hfirst, toNat_getV_keyTaken x k s,
      getKey_setKey_self k false _, pcMoves_advance rfl,
      ((unchanged_setV x _ s).trans (unchanged_setKey k false _)).trans (unchanged_advance _)⟩
  · exact exec_ldVxK_of_none (s.firstKey_eq_none.2 hclear)

end Sys2Proof.Machine
end

section
/-! PROOFS. Conditions, events and the host's transactions (60_exceptions.md R230 to R250,
70_reset_and_hazards.md R274): a step always answers, a fatal Cycle is its condition alone, the
events that each kind of step emits, and the transactions that are neither Cycle nor Start. -/

namespace Sys2Proof.Machine

variable {s t : State} {r : Option Byte}

/-! ## No step leaves the machine (R230) -/

theorem perform_next (x : Transaction) (s : State) : ∃ t, perform x s = .next t := by
  cases x with
  | cycle b => exact cycle_next (some b) s
  | _ => exact ⟨_, rfl⟩

/-- Settles O24: the next transaction is a Cycle, which answers a next state, or one of those that
answer one by definition. -/
theorem stepAlwaysAnswers : Obligations.StepAlwaysAnswers := by
  intro s
  rcases s.next_cases with ⟨r, hc⟩ | ⟨x, hx, -⟩
  · rw [step_of_nextCycle hc]
    exact cycle_next r _
  · rw [step_of_nextIs hx]
    exact perform_next x _

/-! ## Frames of a transaction -/

theorem UnchangedBut.mono {ps qs : List Part} (hsub : ps ⊆ qs) (h : UnchangedBut ps s t) :
    UnchangedBut qs s t := fun p hp => h p fun hps => hp (hsub hps)

/-- What a transaction changes once it is off the pending list, and the list itself. -/
theorem UnchangedBut.of_takePending {ps : List Part} (h : UnchangedBut ps (takePending s) t) :
    UnchangedBut (ps ++ [.pending]) s t := by
  intro p hp
  obtain ⟨hps, hpending⟩ : p ∉ ps ∧ p ≠ .pending := by simpa using hp
  exact (same_takePending hpending).trans (h p hps)

theorem unchanged_takePending (s : State) : UnchangedBut [.pending] s (takePending s) :=
  fun _ hp => same_takePending fun e => hp (List.mem_singleton.2 e)

theorem unchanged_emit (e : Event) (s : State) : UnchangedBut [.events] s (s.emit e) := by
  intro p hp
  cases p with
  | events => simp at hp
  | random => exact ⟨rfl, rfl⟩
  | _ => rfl

theorem unchanged_raiseFatal (cause : FatalCause) (word : Option Word) (s : State) :
    UnchangedBut [.status, .events] s (s.raiseFatal cause word) := by
  intro p hp
  obtain ⟨hstatus, hevents⟩ : p ≠ .status ∧ p ≠ .events := by simpa using hp
  exact same_raiseFatal hstatus hevents

/-! ## A fatal Cycle (R107, R232, R237) -/

theorem State.Running.status_ne_halted {c : FatalCause} (h : s.Running) : s.status ≠ .halted c := by
  rw [h]
  nofun

/-- A Cycle that halts a running block only raises the condition, on the word at PC where the fetch
did not fault: the word of the instruction is the fetched one. -/
theorem step_cycle_halted {c : FatalCause} (hrun : s.Running) (hc : s.NextCycle r)
    (h : step s = .next t) (ht : t.status = .halted c) :
    t = (takePending s).raiseFatal c
      (if s.pc.toNat + 1 ≤ 0xFFF then some s.WordAtPc else none) := by
  rcases step_cycle_cases hc h with
    ⟨hstop, -⟩ | ⟨-, hpc, rfl⟩ | ⟨-, -, -, rfl⟩ | ⟨i, hi, ⟨hq, -⟩ | ⟨c', rfl⟩⟩
  · exact absurd hrun hstop
  · cases ht
    rw [if_neg (Nat.not_le.2 hpc)]
  · exact absurd ht hrun.status_ne_halted
  · have hstill : t.Running := hq.status.trans hrun
    exact absurd ht hstill.status_ne_halted
  · cases ht
    obtain ⟨-, -, hpc, hd⟩ := hi
    obtain ⟨hword, -⟩ := decodeWord_instr hd
    rw [if_pos hpc, hword]

/-- Settles O11: the state is that of the condition, raised before the Cycle changed anything. -/
theorem fatalIsPrecise : Obligations.FatalIsPrecise := by
  intro s t r c hrun hc h ht
  obtain rfl := step_cycle_halted hrun hc h ht
  exact ⟨rfl, rfl, (unchanged_raiseFatal c _ _).of_takePending⟩

/-! ## Tick (R244 to R246) -/

/-- A Tick of a running block: both timers count down, with a Beep exactly if ST was 1. -/
theorem tick_of_running (hrun : s.Running) :
    (tick s).dt = countDown s.dt ∧ (tick s).st = countDown s.st ∧
      (tick s).events = (if s.st.toNat = 1 then .beep :: s.events else s.events) ∧
      UnchangedBut [.dt, .st, .events] s (tick s) := by
  have htimers : UnchangedBut [.dt, .st] s ((s.setDt (countDown s.dt)).setSt (countDown s.st)) :=
    (unchanged_setDt _ s).trans (unchanged_setSt _ _)
  by_cases hst : s.st = 1
  · have hone : s.st.toNat = 1 := congrArg BitVec.toNat hst
    rw [tick_of_beep hrun hst, if_pos hone]
    exact ⟨rfl, rfl, rfl, htimers.trans (unchanged_emit .beep _)⟩
  · have hone : s.st.toNat ≠ 1 := fun e => hst (BitVec.eq_of_toNat_eq e)
    rw [tick_of_quiet hrun hst, if_neg hone]
    exact ⟨rfl, rfl, rfl, htimers.mono (by simp)⟩

theorem tick_pending (s : State) : (tick s).pending = s.pending := by
  by_cases hrun : s.Running
  · obtain ⟨-, -, -, hframe⟩ := tick_of_running hrun
    exact hframe .pending (by simp)
  · rw [tick_of_not_running hrun]

/-- Settles O28: a running block's Tick changes the timers and the events, a stopped one's
nothing. -/
theorem tickCountsDown : Obligations.TickCountsDown := by
  intro s hx
  refine ⟨tick (takePending s), step_of_nextIs hx, tick_pending _, fun hrun => ?_, fun hstop => ?_⟩
  · obtain ⟨hdt, hst, hevents, hframe⟩ := tick_of_running (s := takePending s) hrun
    rw [hdt, hst, toNat_countDown, toNat_countDown]
    exact ⟨rfl, rfl, hevents, hframe.of_takePending⟩
  · rw [tick_of_not_running (s := takePending s) hstop]
    exact unchanged_takePending s

/-! ## The events of a step (R231, R245) -/

theorem start_events (rom : RomImage) (s : State) :
    (start rom s).events = s.events ∨ ∃ n, (start rom s).events = .loadError n :: s.events := by
  cases rom with
  | unreadable len => exact .inr ⟨len, rfl⟩
  | bytes b =>
    rcases Nat.lt_or_ge romMax b.length with hlong | hfits
    · rw [start_of_too_long hlong]
      exact .inr ⟨_, rfl⟩
    · rw [start_of_fits hfits]
      exact .inl rfl

theorem tick_events (s : State) : (tick s).events = s.events ∨
    (s.Running ∧ s.st.toNat = 1 ∧ (tick s).events = .beep :: s.events) := by
  by_cases hrun : s.Running
  · obtain ⟨-, -, hevents, -⟩ := tick_of_running hrun
    by_cases hst : s.st.toNat = 1
    · exact .inr ⟨hrun, hst, hevents.trans (if_pos hst)⟩
    · exact .inl (hevents.trans (if_neg hst))
  · exact .inl (congrArg State.events (tick_of_not_running hrun))

/-- What any step adds to the history: nothing, one event that is no Beep, or, at a Tick of a
running block with ST = 1, one Beep. -/
theorem step_events_cases (h : step s = .next t) :
    t.events = s.events ∨ (∃ e, e ≠ .beep ∧ t.events = e :: s.events) ∨
      ((s.Running ∧ s.NextIs .tick ∧ s.st.toNat = 1) ∧ t.events = .beep :: s.events) := by
  rcases s.next_cases with ⟨r, hc⟩ | ⟨x, hx, hnc⟩
  · rcases cycleEmitsAtMostOne s t r hc h with hsame | ⟨pc, w, hone⟩ | ⟨c, pc, w, hone⟩
    · exact .inl hsame
    · exact .inr (.inl ⟨.unknownOpcode pc w, nofun, hone⟩)
    · exact .inr (.inl ⟨.fatal c pc w, nofun, hone⟩)
  · rw [step_of_nextIs hx] at h
    cases x with
    | cycle b => exact absurd rfl (hnc b)
    | start rom =>
      cases h
      rcases start_events rom (takePending s) with hsame | ⟨n, hone⟩
      · exact .inl hsame
      · exact .inr (.inl ⟨.loadError n, nofun, hone⟩)
    | tick =>
      cases h
      rcases tick_events (takePending s) with hsame | ⟨hrun, hst, hbeep⟩
      · exact .inl hsame
      · exact .inr (.inr ⟨⟨hrun, hx, hst⟩, hbeep⟩)
    | keyWrite k b => cases h; exact .inl rfl
    | stop => cases h; exact .inl rfl
    | readDisplay => cases h; exact .inl rfl

/-- Settles O26: each case of what a step adds is at most one event. -/
theorem eventHistoryOnlyGrows : Obligations.EventHistoryOnlyGrows := by
  intro s t h
  rcases step_events_cases h with hsame | ⟨e, -, hone⟩ | ⟨-, hbeep⟩
  · exact .inl hsame
  · exact .inr ⟨e, hone⟩
  · exact .inr ⟨_, hbeep⟩

/-- Settles O29: the Tick counts ST down from 1 to 0, and what any other step adds is no Beep. -/
theorem beepOnlyAtTick : Obligations.BeepOnlyAtTick := by
  intro s t h
  refine ⟨fun ⟨hrun, hx, hst⟩ => ?_, fun hother => ?_⟩
  · obtain ⟨t', h', -, hticked, -⟩ := tickCountsDown s hx
    cases h.symm.trans h'
    obtain ⟨-, hdown, hevents, -⟩ := hticked hrun
    exact ⟨hevents.trans (if_pos hst), by rw [hdown, hst]⟩
  · rcases step_events_cases h with hsame | ⟨e, hne, hone⟩ | ⟨hbeeping, -⟩
    · rw [hsame]
    · rw [hone, List.count_cons_of_ne hne]
    · exact absurd hbeeping hother

/-! ## KeyWrite, Stop and the Renderer's read (R249, R250, R274) -/

/-- Settles O30: the step is the write of the latch. -/
theorem keyWriteSetsLatch : Obligations.KeyWriteSetsLatch := fun s k b hx =>
  ⟨(takePending s).setKey k b, step_of_nextIs hx, getKey_setKey_self k b _, rfl,
    (unchanged_setKey k b _).of_takePending⟩

/-- Settles O33: Stop writes the status, and the read changes only the pending list. -/
theorem stopAndDisplayRead : Obligations.StopAndDisplayRead := fun s =>
  ⟨fun hx => ⟨stop (takePending s), step_of_nextIs hx, rfl, rfl⟩,
    fun hx => ⟨takePending s, step_of_nextIs hx, rfl, unchanged_takePending s⟩⟩

end Sys2Proof.Machine
end

section
/-! PROOFS. The Starts at the edges of a session (70_reset_and_hazards.md R270 to R272): a Start
that fails on its image, and the Start of an empty image, which is the reset state. -/

namespace Sys2Proof.Machine

variable {s : State}

/-! ## A Start that fails (R271) -/

theorem step_of_start {rom : RomImage} (h : s.NextIs (.start rom)) :
    step s = .next (start rom (takePending s)) :=
  step_of_nextIs h

theorem start_of_unreadable (len : Nat) (s : State) :
    start (.unreadable len) s = loadError len s := rfl

@[simp] theorem loadError_status (len : Nat) (s : State) : (loadError len s).status = .idle := rfl

@[simp] theorem loadError_events (len : Nat) (s : State) :
    (loadError len s).events = .loadError len :: s.events := rfl

/-- A step that is a failed Start leaves Idle and adds one LoadError. -/
theorem step_of_start_loadError {rom : RomImage} {len : Nat} (h : s.NextIs (.start rom))
    (hfail : start rom (takePending s) = loadError len (takePending s)) :
    ∃ t, step s = .next t ∧ t.status = .idle ∧ t.events = .loadError len :: s.events :=
  ⟨loadError len (takePending s), (step_of_start h).trans (congrArg _ hfail),
    loadError_status _ _, loadError_events _ _⟩

/-- Settles O32: the Start of an image past ROM_MAX, and that of an unreadable one, is a
LoadError. -/
theorem startRejectsBadImage : Obligations.StartRejectsBadImage := by
  refine fun s => ⟨fun rom hx hlong => ?_, fun len hx => ?_⟩
  · have hmax : romMax < rom.length := hlong
    exact step_of_start_loadError hx (start_of_too_long hmax)
  · exact step_of_start_loadError hx (start_of_unreadable len _)

/-! ## The empty Start (R270, R272) -/

/-- An empty session is the reset state, under the parameters and the host's fields it began
with. -/
theorem newSession_nil (s : State) :
    newSession [] s =
      { State.reset with
        cfg := s.cfg, randIn := s.randIn, randCount := s.randCount
        pending := s.pending, events := s.events } := rfl

theorem start_nil (s : State) : start (.bytes []) s = newSession [] s :=
  start_of_fits (Nat.zero_le romMax)

/-- Settles O34: power-on has the parameters and the host's fields of reset, and is Idle. -/
theorem resetIsEmptyStart : Obligations.ResetIsEmptyStart :=
  ⟨(start_nil powerOn).trans (newSession_nil powerOn), rfl⟩

end Sys2Proof.Machine
end
